-- ==== Sys2Proof/Word.lean ====
section
/-!
DEFINITION. The bit vectors of the block: words, counts and opcodes.

A word of an instance of width W (00_scope.md R7) is W bits. Every instance's words are held in the one
type `Word`, 128 bits, the widest W of R5; in an instance of width W the bits W and above do not exist and
are 0 (`State.wordsFit` in Safety.lean says so, and every step keeps it). DESIGN CHOICE, safe: assumption
log entry 3.
-/

namespace Sys2Proof

/-- A word of the block: bit i has weight 2^i (R7); bits W and above are 0 (log entry 3). -/
abbrev Word := BitVec 128

/-- A count operand, and the cursor `pos`: CW = 8 bits for every W (R6, R16, R50). -/
abbrev Count := BitVec 8

/-- The opcode field: OPW = 3 bits (R6, R49). -/
abbrev Opcode := BitVec 3

end Sys2Proof
end

