-- ==== Sys2Proof/Config.lean ====
section
/-!
DEFINITION. What an instance fixes when it is built, and the free values.

The one build parameter is the word width W (00_scope.md R5); the free values stand for the spec's
`any_N()` (R9): they have no body, so nothing can be proved of their values.
-/

namespace Sys2Proof

/-- The five word widths in scope (R5). No other width can be written down (U7: any other is refused). -/
inductive Width where
  | w8
  | w16
  | w32
  | w64
  | w128
deriving DecidableEq, Repr

/-- W, in bits (R5). -/
def Width.bits : Width → Nat
  | .w8 => 8
  | .w16 => 16
  | .w32 => 32
  | .w64 => 64
  | .w128 => 128

/-- LOGW = log2(W) (R6, R76). -/
def Width.logBits : Width → Nat
  | .w8 => 3
  | .w16 => 4
  | .w32 => 5
  | .w64 => 6
  | .w128 => 7

/-- L = W + 11, the length in bits of a command word (R6, R47). -/
def Width.commandBits (w : Width) : Nat :=
  w.bits + 11

/-- The width of the instance whose reset state is `State.reset`. The spec leaves W open (R5, D1); the widest
is taken, the width of the source's one concrete scenario (R100). DESIGN CHOICE: unsafe for a claim about
`State.reset` alone (log entry 2); every statement of this package is over every width. -/
def Config.buildWidth : Width :=
  .w128

/-- The free value behind the spec's `any_W()` (R9): draw number n, of which an instance takes the low W bits
(`Machine.anyWord`). No body: nothing in Lean can evaluate it (log entry 6). -/
opaque Config.freeWord : Nat → Word

/-- The free value behind the spec's `any_8()` (R9, R89): draw number n (log entry 6). -/
opaque Config.freeCursor : Nat → Count

/-- What the wires `rsp_data` carry while `rsp_valid` = 0 (R33, U9): a free value (log entry 7). -/
opaque Config.freeIdle : Nat → Word

/-- What the wires `rsp_data` carry in the cycle of a response that the coming reset drops (R33, R120, U9): a free
value (log entries 7 and 20). -/
opaque Config.freeLost : Nat → Word

end Sys2Proof
end

