-- ==== Sys2Proof/Syntax.lean ====
section
/-!
DEFINITION. The commands of UBC-1 (30_encoding.md R49), one constructor per row of spec/opcode_table.json, and
the fields of a command word (R48).
-/

namespace Sys2Proof

/-- The three fields of a command word, which are the three `cmd_` ports taken together (R29, R47, R48). -/
structure CommandWord where
  /-- The opcode field, port `cmd_op` (R49). -/
  op : Opcode
  /-- The count field, port `cmd_count`, unsigned, used as is (R50). -/
  count : Count
  /-- The data field, port `cmd_data`, the low W bits (R51). -/
  data : Word
deriving DecidableEq, Repr

/-- A decoded command. Fields a command does not use are ignored by the decoder and have no place here (R52). -/
inductive Instr where
  /-- `BITSIZE`: return W (R72). -/
  | bitsize
  /-- `MASK n`: return the mask of the low n bits (R73, R74). -/
  | mask (n : Count)
  /-- `WNEW`: clear the packer (R78). -/
  | wnew
  /-- `WRITE count, value`: append a field to the packer (R79, R80). -/
  | write (count : Count) (value : Word)
  /-- `FINISH`: return the packed word and clear the packer (R82). -/
  | finish
  /-- `RNEW value`: load the unpacker (R87). -/
  | rnew (value : Word)
  /-- `READ count`: extract the next field from the unpacker (R88, R89). -/
  | read (count : Count)
  /-- Opcode 7, reserved (R53). -/
  | reserved7
deriving DecidableEq, Repr

end Sys2Proof
end

