-- ==== Sys2Proof/WellFormed.lean ====
section
/-!
DEFINITION. Which commands an instance of width W can be given: a data operand is a W-bit word
(30_encoding.md R51, R56). A count operand is any 8-bit number (R50), so its type is its whole check; a count
above W is well formed and out of contract (R74, R80, R89), never ill formed.
What `exec` would do with an ill-formed command is log entry 19; no step executes one.
-/

namespace Sys2Proof

/-- The word x fits the W wires of an instance of width w: x < 2^W. -/
abbrev Word.fits (w : Width) (x : Word) : Prop :=
  x.toNat < 2 ^ w.bits

/-- A value wider than W cannot be presented (R51, U5): the data operand fits W bits. -/
def Instr.wellFormed (w : Width) : Instr → Bool
  | .bitsize => true
  | .mask _ => true
  | .wnew => true
  | .write _ value => decide (Word.fits w value)
  | .finish => true
  | .rnew value => decide (Word.fits w value)
  | .read _ => true
  | .reserved7 => true

end Sys2Proof
end

