-- ==== Sys2Proof/Decode.lean ====
section
/-!
DEFINITION. The decoder and the canonical encoder of command words (30_encoding.md R47 to R54, R59).

A command word is one number of L = W + 11 bits, `op * 2^(W+8) + count * 2^W + data` (R47). The block never
sees it serialised into bytes (R60), so there is no byte order here.
-/

namespace Sys2Proof

/-- Why a number is no command word of an instance (R117). -/
inductive DecodeError where
  /-- The number does not fit in L = W + 11 bits: a command word of the wrong length (R47, R117). -/
  | wrongLength
deriving DecidableEq, Repr

/-- The fields of a command word of L bits, by position (R48): `op` in bits W+10 to W+8, `count` in bits W+7 to W,
`data` in bits W-1 to 0. A number of more than L bits is rejected by name. -/
def commandOfNat (w : Width) (cmd : Nat) : Except DecodeError CommandWord :=
  if cmd < 2 ^ w.commandBits then
    .ok
      { op := BitVec.ofNat 3 (cmd / 2 ^ (w.bits + 8))
        count := BitVec.ofNat 8 (cmd / 2 ^ w.bits)
        data := BitVec.ofNat 128 (cmd % 2 ^ w.bits) }
  else
    .error .wrongLength

/-- The command word as a single number (R47). -/
def commandToNat (w : Width) (c : CommandWord) : Nat :=
  c.op.toNat * 2 ^ (w.bits + 8) + c.count.toNat * 2 ^ w.bits + c.data.toNat

/-- The opcode map (R49). Decoding looks at `op` alone, is total and drops the fields a command does not
use (R52, R54). The last arm is opcode 7: an `Opcode` is below 8. -/
def decodeFields (c : CommandWord) : Instr :=
  match c.op.toNat with
  | 0 => .bitsize
  | 1 => .mask c.count
  | 2 => .wnew
  | 3 => .write c.count c.data
  | 4 => .finish
  | 5 => .rnew c.data
  | 6 => .read c.count
  | _ => .reserved7

/-- Decoding a command word of an instance of width w: every L-bit pattern is a command (R54). -/
def decodeCommand (w : Width) (cmd : Nat) : Except DecodeError Instr :=
  match commandOfNat w cmd with
  | .ok c => .ok (decodeFields c)
  | .error e => .error e

/-- The canonical fields of a command: 0 in every ignored field (R52, R59). -/
def canonicalFields : Instr → CommandWord
  | .bitsize => { op := 0, count := 0, data := 0 }
  | .mask n => { op := 1, count := n, data := 0 }
  | .wnew => { op := 2, count := 0, data := 0 }
  | .write count value => { op := 3, count := count, data := value }
  | .finish => { op := 4, count := 0, data := 0 }
  | .rnew value => { op := 5, count := 0, data := value }
  | .read count => { op := 6, count := count, data := 0 }
  | .reserved7 => { op := 7, count := 0, data := 0 }

/-- The canonical command word an assembler emits for a command (R59). -/
def encode (w : Width) (i : Instr) : Nat :=
  commandToNat w (canonicalFields i)

/-- The fields of a word whose bits are numbered as spec/opcode_table.json numbers them: its match and mask lie on
the 11-bit header `hdr = cmd[W+10:W]` (R48, R49), bits 10 to 8 `op`, bits 7 to 0 `count`; the table gives the
data field no bits, so it is 0; bits above the header belong to no field (log entry 9). -/
def tableCommand (nbits w : Nat) : CommandWord :=
  { op := BitVec.ofNat 3 (w % 2 ^ nbits / 2 ^ 8)
    count := BitVec.ofNat 8 (w % 2 ^ nbits)
    data := 0 }

/-- The instruction the decoder reads from a word numbered as the opcode table numbers it: the header is laid
above a data field of zeros and the command word is decoded (log entry 9). -/
def decodeTableWord (nbits w : Nat) : Option Instr :=
  match decodeCommand Config.buildWidth (commandToNat Config.buildWidth (tableCommand nbits w)) with
  | .ok i => some i
  | .error _ => none

end Sys2Proof
end

