-- ==== Sys2Proof/Machine/State.lean ====
section
/-!
DEFINITION. The state of one block, the reasons a step can stop, and the state after reset.

The block has three registers (10_state.md R13), two ghost counters (R20) and a response stage (20_memory.md
R33). It has no program counter (R23), no flags (R24), no control or status registers (R25), no other
register file (R26) and no memory (R27), so State has none.
-/

namespace Sys2Proof.Machine

/-- The input ports of the block at one rising edge of `clk` (20_memory.md R29). -/
structure PortInputs where
  /-- `rst`: synchronous reset, active high (R118). -/
  rst : Bool
  /-- `cmd_valid`: the host presents a command word at this edge (R31). -/
  cmdValid : Bool
  /-- `cmd_op`, `cmd_count`, `cmd_data` (R29); of `data` only the W wires of the instance exist (log entry 18). -/
  cmd : CommandWord
deriving DecidableEq, Repr

/-- One block. `width` is its build parameter; `acc` is the packer's register; `bitVec` and `pos` are the
unpacker's; `wbits` and `rbits` are the ghost counters; `rsp` is the response stage. `inputs`, `draws` and
`idles` are the model's own: what the host will drive, and the numbers of the free values. -/
structure State where
  /-- The word width W of the instance, fixed when it is built (R5, log entry 1). -/
  width : Width
  /-- `acc`, the packer's accumulator, W bits (R14). -/
  acc : Word
  /-- `bit_vec`, the unpacker's word, W bits (R15). -/
  bitVec : Word
  /-- `pos`, the unpacker's cursor, 8 bits (R16). -/
  pos : Count
  /-- Ghost: the bits written since the last WNEW, FINISH or reset (R20). -/
  wbits : Nat
  /-- Ghost: the bits read since the last RNEW or reset (R20). -/
  rbits : Nat
  /-- The response stage (R22, R33): `some v` in the cycle after a command whose response is v, `none` in any other. The
  ports show it (`rspValid`, `rspData`), but for a response that the coming reset drops (R120). -/
  rsp : Option Word
  /-- What the host will drive at the coming edges, the next edge first; after the last one it presents nothing
  (model's own, log entry 4). -/
  inputs : List PortInputs
  /-- How many out-of-contract commands have drawn free values (model's own, log entry 6). -/
  draws : Nat
  /-- How many edges left no valid response: the number of the free value on `rsp_data` (model's own, log entry 7). -/
  idles : Nat
deriving DecidableEq, Repr

/-- The reasons the machine can stop with a fault: none. The block raises no exception, never hangs and never
enters a special state (60_exceptions.md R105, R117), so no step of the model raises a fault (log entry 10). -/
inductive Fault where
deriving DecidableEq, Repr

/-- The reasons the model can give a command no meaning. -/
inductive Refusal where
  /-- Raised by an arm of `exec` whose instruction has no meaning yet, and by nothing else. No arm raises it: every
  command has its meaning. Safe: it stops where the hardware goes on. -/
  | notModelled (mnemonic : String)
deriving DecidableEq, Repr

/-- The block of width w right after a reset (R28, R119, R120): `acc`, `bit_vec` and `pos` are 0, the ghost counters
are 0 and `rsp_valid` is 0. `inputs`, `draws` and `idles` are the model's own (log entries 4, 6 and 7). -/
def State.resetAt (w : Width) : State :=
  { width := w
    acc := 0
    bitVec := 0
    pos := 0
    wbits := 0
    rbits := 0
    rsp := none
    inputs := []
    draws := 0
    idles := 0 }

/-- The machine right after reset: the reset state of the instance width of Config (log entry 2). -/
def State.reset : State :=
  State.resetAt Config.buildWidth

end Sys2Proof.Machine
end

