-- ==== Sys2Proof/Machine/Flags.lean ====
section
/-!
DEFINITION. Flags: the block has none (10_state.md R24), no command sets or reads a status bit, and misuse is not
signalled (60_exceptions.md R105, R108). What other machines record in a flag is here only the contract the
caller must keep (00_scope.md R10), stated over the ghost counters; the hardware holds none of it.
-/

namespace Sys2Proof.Machine

/-- Precondition of MASK: n <= W (R74). -/
def maskInContract (n : Count) (s : State) : Bool :=
  decide (n.toNat ≤ s.width.bits)

/-- Precondition of WRITE: wbits + count <= W (R80). -/
def writeInContract (count : Count) (s : State) : Bool :=
  decide (s.wbits + count.toNat ≤ s.width.bits)

/-- Precondition of READ: rbits + count <= W (R89). -/
def readInContract (count : Count) (s : State) : Bool :=
  decide (s.rbits + count.toNat ≤ s.width.bits)

end Sys2Proof.Machine
end

