-- ==== Sys2Proof/Machine/Datapath.lean ====
section
/-!
DEFINITION. The shifter and masking datapath that every command is built from (40_datapath.md R61 to R71): left
shift, logical right shift, the mask generator; AND and OR are those of `Word`. Combinational and stateless
(R71): plain functions of their operands.

`shl` and `shr` are the spec's operations for amounts 0 to W, `nmask` for n at most W (R62 to R64). Outside
these ranges the spec leaves the results unspecified (R66, R67, U11); no meaning applies them there, and no
statement says anything of them there (log entry 17).
-/

namespace Sys2Proof.Machine

/-- ALLONES = 2^W - 1 (R6). -/
def allOnes (w : Width) : Word :=
  BitVec.ofNat 128 (2 ^ w.bits - 1)

/-- SHL(x, s) = (x * 2^s) mod 2^W, for s in 0..W: the top s bits are lost, zeros enter at the bottom, and the amount
is not taken modulo W (R62, R67, 90_conflicts.md C1). -/
def shl (w : Width) (x : Word) (s : Nat) : Word :=
  (x <<< s) &&& allOnes w

/-- SHR(x, s) = floor(x / 2^s), for s in 0..W: zeros enter at the top; an amount of W gives 0 (R63, R67). -/
def shr (x : Word) (s : Nat) : Word :=
  x >>> s

/-- NMASK(n) = SHR(ALLONES, W - n), for n in 0..W (R64); its value is 2^n - 1 (R68). -/
def nmask (w : Width) (n : Nat) : Word :=
  shr (allOnes w) (w.bits - n)

end Sys2Proof.Machine
end

