-- ==== Sys2Proof/Machine/Operands.lean ====
section
/-!
DEFINITION. The operand forms: what a command reads from the ports (30_encoding.md R50, R51), the width constant,
and the free values that stand where the spec writes `any_N()` (00_scope.md R9).
-/

namespace Sys2Proof.Machine

/-- The command word the block sees on its ports: of `cmd_data` only the W wires of the instance exist (R29, R51;
log entry 18). -/
def portCommand (w : Width) (c : CommandWord) : CommandWord :=
  { c with data := c.data &&& allOnes w }

/-- zext_W(W): the number W as a W-bit word (R72). -/
def widthWord (w : Width) : Word :=
  BitVec.ofNat 128 w.bits

/-- any_W(): draw number n, W bits under no law (R9). -/
def anyWord (w : Width) (n : Nat) : Word :=
  Config.freeWord n &&& allOnes w

/-- any_8(): draw number n, 8 bits under no law (R9, R89). -/
def anyCursor (n : Nat) : Count :=
  Config.freeCursor n

/-- What `rsp_data` carries while no response is valid (R33, U9): W bits under no law. -/
def idleWord (w : Width) (n : Nat) : Word :=
  Config.freeIdle n &&& allOnes w

/-- What `rsp_data` carries in the cycle of a dropped response (R33, R120, U9): W bits under no law. -/
def lostWord (w : Width) (n : Nat) : Word :=
  Config.freeLost n &&& allOnes w

/-- READ's shift amount W - count - pos, defined only when the result is not negative (R66, R88). -/
def readShift (w : Width) (count pos : Nat) : Option Nat :=
  if count + pos ≤ w.bits then some (w.bits - count - pos) else none

end Sys2Proof.Machine
end

