-- ==== Sys2Proof/Machine/Ops.lean ====
section
/-!
DEFINITION. The named operations on the block's registers and ports.

There is no memory, so no operation reads or writes any (10_state.md R27, 20_memory.md R38). There is no
exception entry and no return from one: no state is saved, no mode changes, no vector is fetched
(60_exceptions.md R105, R110). The one event that can come between commands is a reset (R118, R119).
-/

namespace Sys2Proof.Machine

/-- rsp <- v: the response stage holds v, `rsp_valid` = 1 (R33, R35). -/
def respond (v : Word) (s : State) : State :=
  { s with rsp := some v }

/-- The packer's registers: `acc` and its ghost counter (R14, R20). -/
def setPacker (acc : Word) (wbits : Nat) (s : State) : State :=
  { s with acc := acc, wbits := wbits }

/-- The unpacker's cursor and its ghost counter (R16, R20). -/
def setCursor (pos : Count) (rbits : Nat) (s : State) : State :=
  { s with pos := pos, rbits := rbits }

/-- The unpacker's word register (R15). -/
def setWord (v : Word) (s : State) : State :=
  { s with bitVec := v }

/-- The free values of the current draw number have been used: the next draw is another one (R9, log entry 6). -/
def drawn (s : State) : State :=
  { s with draws := s.draws + 1 }

/-- `cmd_ready`: 1 whenever `rst` = 0, 0 while `rst` = 1 (R32). -/
def cmdReady (rst : Bool) : Bool :=
  !rst

/-- A command is accepted at an edge at which `rst` = 0, `cmd_valid` = 1 and `cmd_ready` = 1 (R31). -/
def accepts (e : PortInputs) : Bool :=
  !e.rst && e.cmdValid && cmdReady e.rst

/-- A host that presents nothing (R37). -/
def idleInputs : PortInputs :=
  { rst := false, cmdValid := false, cmd := { op := 0, count := 0, data := 0 } }

/-- What the host drives at the next rising edge; nothing once the listed inputs are used up (R37, log entry 4). -/
def edgeInputs (s : State) : PortInputs :=
  match s.inputs with
  | [] => idleInputs
  | e :: _ => e

/-- The edge is past: the host's next inputs stand first. -/
def pastEdge (s : State) : State :=
  { s with inputs := s.inputs.tail }

/-- `rsp_valid` becomes 0; what `rsp_data` carries until the next edge is a new free value (R33, log entry 7). -/
def noResponse (s : State) : State :=
  { s with rsp := none, idles := s.idles + 1 }

/-- An edge at which no command is accepted and `rst` = 0: no register changes, `rsp_valid` becomes 0 (R31, R33). -/
def idleEdge (s : State) : State :=
  noResponse s

/-- A reset edge: the three registers and both ghost counters take the values of R28, `rsp_valid` becomes 0
(R119, R120). The instance's width, the host's inputs and the draw numbers are not the reset's to change. -/
def resetEdge (s : State) : State :=
  noResponse (setWord 0 (setCursor 0 0 (setPacker 0 0 s)))

/-- The response stage is dropped: the coming edge is a reset edge, and a response's one valid cycle before it is
replaced by `rsp_valid` = 0 (R120, D25). DESIGN CHOICE: R33 read alone would keep the response on the port until
that edge; R120 is followed (log entry 20). -/
def responseDropped (s : State) : Bool :=
  (edgeInputs s).rst

/-- Port `rsp_valid` (R29, R33): 1 while the stage holds a response, unless the coming reset drops it (R120). -/
def rspValid (s : State) : Bool :=
  s.rsp.isSome && !responseDropped s

/-- Port `rsp_data` (R29, R33): the response while `rsp_valid` = 1, a free value otherwise (U9, log entry 7). -/
def rspData (s : State) : Word :=
  match s.rsp with
  | some v => if responseDropped s then lostWord s.width s.idles else v
  | none => idleWord s.width s.idles

/-- The host presents the command c at the next edge in place of what it would have driven there. -/
def presentCommand (c : CommandWord) (s : State) : State :=
  { s with inputs := { rst := false, cmdValid := true, cmd := c } :: s.inputs.tail }

end Sys2Proof.Machine
end

