-- ==== Sys2Proof/Machine/Packer.lean ====
section
/-!
DEFINITION. The packer's commands WNEW, WRITE and FINISH (41_writer.md R78 to R84).
-/

namespace Sys2Proof.Machine

/-- WNEW: acc <- 0, wbits <- 0, rsp <- 0 (R78). -/
def execWnew (s : State) : Host.Outcome State Fault Refusal :=
  .next (respond 0 (setPacker 0 0 s))

/-- WRITE count, value: in contract acc <- SHL(acc, count) | (value & NMASK(count)) (R79); out of contract
acc <- any_W() (R80). Either way wbits <- wbits + count (R21) and rsp <- 0. -/
def execWrite (count : Count) (value : Word) (s : State) : Host.Outcome State Fault Refusal :=
  if writeInContract count s then
    .next (respond 0
      (setPacker (shl s.width s.acc count.toNat ||| (value &&& nmask s.width count.toNat))
        (s.wbits + count.toNat) s))
  else
    .next (respond 0 (setPacker (anyWord s.width s.draws) (s.wbits + count.toNat) (drawn s)))

/-- FINISH: rsp <- acc (the value before the command), acc <- 0, wbits <- 0 (R82). -/
def execFinish (s : State) : Host.Outcome State Fault Refusal :=
  .next (respond s.acc (setPacker 0 0 s))

end Sys2Proof.Machine
end

