-- ==== Sys2Proof/Machine/Unpacker.lean ====
section
/-!
DEFINITION. The unpacker's commands RNEW and READ (42_reader.md R87 to R91).
-/

namespace Sys2Proof.Machine

/-- RNEW value: bit_vec <- value, pos <- 0, rbits <- 0, rsp <- 0 (R87). -/
def execRnew (value : Word) (s : State) : Host.Outcome State Fault Refusal :=
  .next (respond 0 (setWord value (setCursor 0 0 s)))

/-- READ with unspecified results: rsp <- any_W(), pos <- any_8(), rbits <- rbits + count, bit_vec unchanged (R89). -/
def readUnspecified (count : Count) (s : State) : State :=
  respond (anyWord s.width s.draws)
    (setCursor (anyCursor s.draws) (s.rbits + count.toNat) (drawn s))

/-- READ count: in contract rsp <- SHR(bit_vec, W - count - pos) & NMASK(count), pos <- pos + count (R88); out of
contract the response and the cursor are unspecified (R89). A shift amount that would be negative is
unspecified too (R66); with rbits + count <= W that happens only where pos and rbits differ, which no state
reached from reset shows (R19, log entry 11). -/
def execRead (count : Count) (s : State) : Host.Outcome State Fault Refusal :=
  if readInContract count s then
    match readShift s.width count.toNat s.pos.toNat with
    | some shift =>
      .next (respond (shr s.bitVec shift &&& nmask s.width count.toNat)
        (setCursor (s.pos + count) (s.rbits + count.toNat) s))
    | none => .next (readUnspecified count s)
  else
    .next (readUnspecified count s)

end Sys2Proof.Machine
end

