-- ==== Sys2Proof/Machine/Utility.lean ====
section
/-!
DEFINITION. The commands that touch no state: BITSIZE, MASK (40_datapath.md R72 to R74) and the reserved opcode 7
(30_encoding.md R53).
-/

namespace Sys2Proof.Machine

/-- BITSIZE: rsp <- zext_W(W) (R72). -/
def execBitsize (s : State) : Host.Outcome State Fault Refusal :=
  .next (respond (widthWord s.width) s)

/-- MASK n: rsp <- NMASK(n) when n <= W (R73); otherwise rsp <- any_W() and nothing else changes (R74). -/
def execMask (n : Count) (s : State) : Host.Outcome State Fault Refusal :=
  if maskInContract n s then
    .next (respond (nmask s.width n.toNat) s)
  else
    .next (respond (anyWord s.width s.draws) (drawn s))

/-- Opcode 7: the UBC-1 block executes it as a no-operation with response 0 (R53). DESIGN CHOICE: the effect is
modelled, not the refusal R53 advises a model to make; unsafe for a later edition (log entry 8). -/
def execReserved7 (s : State) : Host.Outcome State Fault Refusal :=
  .next (respond 0 s)

end Sys2Proof.Machine
end

