-- ==== Sys2Proof/Machine/Dispatch.lean ====
section
/-!
DEFINITION. `exec`: the meaning of every command, one arm per constructor of Instr (30_encoding.md R49).
-/

namespace Sys2Proof.Machine

def exec (i : Instr) (s : State) : Host.Outcome State Fault Refusal :=
  match i with
  | .bitsize => Sys2Proof.Machine.execBitsize s
  | .mask n => Sys2Proof.Machine.execMask n s
  | .wnew => Sys2Proof.Machine.execWnew s
  | .write count value => Sys2Proof.Machine.execWrite count value s
  | .finish => Sys2Proof.Machine.execFinish s
  | .rnew value => Sys2Proof.Machine.execRnew value s
  | .read count => Sys2Proof.Machine.execRead count s
  | .reserved7 => Sys2Proof.Machine.execReserved7 s

end Sys2Proof.Machine
end

