-- ==== Sys2Proof/Machine/Step.lean ====
section
/-!
DEFINITION. One step of the machine: one rising edge of `clk` (20_memory.md R30, log entry 16). The block fetches nothing (10_state.md
R23): a command comes from the host's ports at the edge it is executed at (R31, R45).
-/

namespace Sys2Proof.Machine

/-- One rising edge of `clk`. With `rst` = 1 a reset, which wins over any command (R119); with a command accepted, that
command, executed once and wholly (R31, R36); otherwise an edge that changes no register (R31). -/
def step (s : State) : Host.Outcome State Fault Refusal :=
  if (edgeInputs s).rst then
    .next (resetEdge (pastEdge s))
  else if accepts (edgeInputs s) then
    exec (decodeFields (portCommand s.width (edgeInputs s).cmd)) (pastEdge s)
  else
    .next (idleEdge (pastEdge s))

/-- s with the host presenting, at the next edge, the command whose header bits are w as spec/opcode_table.json
numbers them, and a data field of zeros (log entries 5 and 9): the very next step executes it. -/
def State.withFetchWord (s : State) (nbits w : Nat) : State :=
  presentCommand (tableCommand nbits w) s

end Sys2Proof.Machine
end

