-- ==== Sys2Proof/Machine/Assembler.lean ====
section
/-!
DEFINITION. The assembler and disassembler of 30_encoding.md R56, R57 and R59: one command per line, operands decimal
or 0x hexadecimal, comments from a semicolon to the end of the line, the width stated first as `.width W`. There
are no pseudo-instructions (R57) and no spelling for opcode 7. What R56 does not say of white space, digit case,
grouped digits and empty lines is log entry 14.
-/

namespace Sys2Proof.Machine

/-- Why a line is an assembly error. -/
inductive AsmError where
  /-- An operand that is no decimal or hexadecimal number. -/
  | badNumber
  /-- A first word that is no mnemonic of R56. -/
  | unknownMnemonic
  /-- A wrong number of operands, or commas out of place. -/
  | badOperands
  /-- An operand outside its range: the encoding cannot hold it (R56). -/
  | outOfRange
  /-- The program does not begin with `.width W` for one of the five widths (R5, R56). -/
  | noWidth
deriving DecidableEq, Repr

/-- The pieces of a line. -/
inductive Token where
  | word (text : List Char)
  | comma
deriving DecidableEq, Repr

/-- The word read so far, if any. -/
def flushWord (cur : List Char) : List Token :=
  match cur with
  | [] => []
  | _ :: _ => [.word cur]

/-- Splits a line at blanks and commas and drops the comment (R56); `cur` is the word read so far. -/
def tokensFrom (cur : List Char) : List Char → List Token
  | [] => flushWord cur
  | c :: rest =>
    if c = ';' then flushWord cur
    else if c = ',' then flushWord cur ++ .comma :: tokensFrom [] rest
    else if c = ' ' ∨ c = '\t' then flushWord cur ++ tokensFrom [] rest
    else tokensFrom (cur ++ [c]) rest

/-- The value of a digit, decimal or hexadecimal. DESIGN CHOICE: the `_` that may group digits in the spec's own
notation (00_scope.md R7) is no digit of an operand, of which R56 says nothing: `badNumber` (log entry 14). -/
def digitValue (c : Char) : Option Nat :=
  if 48 ≤ c.toNat ∧ c.toNat ≤ 57 then some (c.toNat - 48)
  else if 65 ≤ c.toNat ∧ c.toNat ≤ 70 then some (c.toNat - 55)
  else if 97 ≤ c.toNat ∧ c.toNat ≤ 102 then some (c.toNat - 87)
  else none

/-- The number written by digits of a base, after those already read. -/
def digitsValue (base : Nat) : Nat → List Char → Option Nat
  | acc, [] => some acc
  | acc, c :: rest =>
    match digitValue c with
    | some d => if d < base then digitsValue base (acc * base + d) rest else none
    | none => none

/-- A number, decimal or `0x` hexadecimal (R56). -/
def parseNumber : List Char → Option Nat
  | '0' :: 'x' :: c :: rest => digitsValue 16 0 (c :: rest)
  | c :: rest => digitsValue 10 0 (c :: rest)
  | [] => none

/-- The operands after a mnemonic: none, one, or two with a comma between them (R56). -/
def parseOperands : List Token → Except AsmError (List Nat)
  | [] => .ok []
  | [.word a] =>
    match parseNumber a with
    | some n => .ok [n]
    | none => .error .badNumber
  | [.word a, .comma, .word b] =>
    match parseNumber a, parseNumber b with
    | some n, some m => .ok [n, m]
    | _, _ => .error .badNumber
  | _ => .error .badOperands

/-- `n` and `count` are 0 to 255 (R56). -/
def countOperand (n : Nat) : Except AsmError Count :=
  if n < 256 then .ok (BitVec.ofNat 8 n) else .error .outOfRange

/-- `value` is 0 to 2^W - 1 (R56). -/
def wordOperand (w : Width) (n : Nat) : Except AsmError Word :=
  if n < 2 ^ w.bits then .ok (BitVec.ofNat 128 n) else .error .outOfRange

/-- The mnemonics of R56; the reserved opcode has none (the empty text is no word of a line). -/
def mnemonicText : Instr → List Char
  | .bitsize => ['B', 'I', 'T', 'S', 'I', 'Z', 'E']
  | .mask _ => ['M', 'A', 'S', 'K']
  | .wnew => ['W', 'N', 'E', 'W']
  | .write _ _ => ['W', 'R', 'I', 'T', 'E']
  | .finish => ['F', 'I', 'N', 'I', 'S', 'H']
  | .rnew _ => ['R', 'N', 'E', 'W']
  | .read _ => ['R', 'E', 'A', 'D']
  | .reserved7 => []

/-- A command that takes no operand. -/
def noOperands (i : Instr) : List Nat → Except AsmError Instr
  | [] => .ok i
  | _ :: _ => .error .badOperands

/-- A command that takes one count operand. -/
def countForm (f : Count → Instr) : List Nat → Except AsmError Instr
  | [n] =>
    match countOperand n with
    | .ok c => .ok (f c)
    | .error e => .error e
  | _ => .error .badOperands

/-- RNEW value. -/
def wordForm (w : Width) (f : Word → Instr) : List Nat → Except AsmError Instr
  | [n] =>
    match wordOperand w n with
    | .ok v => .ok (f v)
    | .error e => .error e
  | _ => .error .badOperands

/-- WRITE count, value: the operand order of R56. -/
def writeForm (w : Width) : List Nat → Except AsmError Instr
  | [n, m] =>
    match countOperand n, wordOperand w m with
    | .ok c, .ok v => .ok (.write c v)
    | .error e, _ => .error e
    | .ok _, .error e => .error e
  | _ => .error .badOperands

/-- The command a mnemonic and its operands stand for (R56). -/
def assembleCommand (w : Width) (name : List Char) (ops : List Nat) : Except AsmError Instr :=
  if name = mnemonicText .bitsize then noOperands .bitsize ops
  else if name = mnemonicText (.mask 0) then countForm .mask ops
  else if name = mnemonicText .wnew then noOperands .wnew ops
  else if name = mnemonicText (.write 0 0) then writeForm w ops
  else if name = mnemonicText .finish then noOperands .finish ops
  else if name = mnemonicText (.rnew 0) then wordForm w .rnew ops
  else if name = mnemonicText (.read 0) then countForm .read ops
  else .error .unknownMnemonic

/-- One line: no command where it holds only blanks and a comment, else one command (R56). -/
def assembleLine (w : Width) (line : List Char) : Except AsmError (Option Instr) :=
  match tokensFrom [] line with
  | [] => .ok none
  | .comma :: _ => .error .badOperands
  | .word name :: rest =>
    match parseOperands rest with
    | .ok ops =>
      match assembleCommand w name ops with
      | .ok i => .ok (some i)
      | .error e => .error e
    | .error e => .error e

/-- The lines of a program assembled for one width. -/
def assembleLines (w : Width) : List (List Char) → Except AsmError (List Instr)
  | [] => .ok []
  | line :: rest =>
    match assembleLine w line, assembleLines w rest with
    | .ok (some i), .ok is => .ok (i :: is)
    | .ok none, .ok is => .ok is
    | .error e, _ => .error e
    | .ok _, .error e => .error e

/-- The width a number names, if it is one of the five (R5). -/
def widthOfNat : Nat → Option Width
  | 8 => some .w8
  | 16 => some .w16
  | 32 => some .w32
  | 64 => some .w64
  | 128 => some .w128
  | _ => none

/-- `.width W`, the line a program begins with (R56); any other width is refused (R5, U7). -/
def widthDirective : List Token → Option Width
  | [.word ['.', 'w', 'i', 'd', 't', 'h'], .word n] =>
    match parseNumber n with
    | some k => widthOfNat k
    | none => none
  | _ => none

/-- A program: lines without a command, the width, then the commands (R56). -/
def assembleProgram : List (List Char) → Except AsmError (Width × List Instr)
  | [] => .error .noWidth
  | line :: rest =>
    match tokensFrom [] line with
    | [] => assembleProgram rest
    | ts =>
      match widthDirective ts with
      | some w =>
        match assembleLines w rest with
        | .ok is => .ok (w, is)
        | .error e => .error e
      | none => .error .noWidth

/-- The command words the assembler emits: the canonical encodings (R59). -/
def assembleWords (lines : List (List Char)) : Except AsmError (Width × List Nat) :=
  match assembleProgram lines with
  | .ok (w, is) => .ok (w, is.map (encode w))
  | .error e => .error e

/-- A hexadecimal digit. -/
def hexDigit (d : Nat) : Char :=
  if d < 10 then Char.ofNat (48 + d) else Char.ofNat (55 + d)

/-- k hexadecimal digits of n, most significant first. -/
def hexDigits : Nat → Nat → List Char
  | 0, _ => []
  | k + 1, n => hexDigits k (n / 16) ++ [hexDigit (n % 16)]

/-- A count in hexadecimal, two digits (R48). -/
def countText (c : Count) : List Char :=
  '0' :: 'x' :: hexDigits 2 c.toNat

/-- A word in hexadecimal, W/4 digits (00_scope.md R7). -/
def wordText (w : Width) (v : Word) : List Char :=
  '0' :: 'x' :: hexDigits (w.bits / 4) v.toNat

/-- The line a disassembler prints: the canonical mnemonic and only the used operands (R59). The reserved opcode
prints none: it has no mnemonic (R56). -/
def disassemble (w : Width) (i : Instr) : Option (List Char) :=
  match i with
  | .bitsize => some (mnemonicText .bitsize)
  | .mask n => some (mnemonicText (.mask n) ++ ' ' :: countText n)
  | .wnew => some (mnemonicText .wnew)
  | .write count value =>
    some (mnemonicText (.write count value) ++ ' ' :: countText count ++ ',' :: ' ' :: wordText w value)
  | .finish => some (mnemonicText .finish)
  | .rnew value => some (mnemonicText (.rnew value) ++ ' ' :: wordText w value)
  | .read count => some (mnemonicText (.read count) ++ ' ' :: countText count)
  | .reserved7 => none

end Sys2Proof.Machine
end

