-- ==== Sys2Proof/Machine/Blocks.lean ====
section
/-!
DEFINITION. Several blocks under one clock (60_exceptions.md R113): each is a State of its own, of any width, with
its own port inputs; they share nothing but the edge. One block serves one command stream (R114, log entry 13).
-/

namespace Sys2Proof.Machine

/-- One rising edge of the common `clk`: every block steps. None where some block answers no next state.
DESIGN CHOICE: each block applies the one family of free values to its own `draws` and `idles`, so two blocks with
equal counters draw equal values, which R9 does not say; unsafe for a claim that compares the draws of two
blocks (log entries 6 and 13). -/
def clockBlocks : List State → Option (List State)
  | [] => some []
  | s :: rest =>
    match step s, clockBlocks rest with
    | .next t, some ts => some (t :: ts)
    | _, _ => none

/-- n rising edges of the common `clk`. -/
def clockBlocksN : Nat → List State → Option (List State)
  | 0, bs => some bs
  | n + 1, bs =>
    match clockBlocks bs with
    | some cs => clockBlocksN n cs
    | none => none

/-- n rising edges of one block alone. -/
def stepN : Nat → State → Option State
  | 0, s => some s
  | n + 1, s =>
    match step s with
    | .next t => stepN n t
    | .fault _ => none
    | .refused _ => none

end Sys2Proof.Machine
end

