-- ==== Sys2Proof/Machine/Stream.lean ====
section
/-!
DEFINITION. Command sequences: the block's consistency model is the fold of `exec` over the commands accepted
(20_memory.md R34, R43), and what a host observes is the list of responses (R46). Also the two usage patterns of
30_encoding.md R58 and 43_properties.md, and the closed forms their laws are stated in.
-/

namespace Sys2Proof.Machine

/-- `exec` folded over a list of commands: the state after them and their responses in order, one per command
(R34, R43). None where a command answers no next state or no response. -/
def runCommands : List Instr → State → Option (State × List Word)
  | [], s => some (s, [])
  | i :: rest, s =>
    match exec i s with
    | .next t =>
      match t.rsp, runCommands rest t with
      | some v, some (u, vs) => some (u, v :: vs)
      | _, _ => none
    | .fault _ => none
    | .refused _ => none

/-- The commands a block of width w accepts from a host that drives these inputs, in order (R31). -/
def acceptedCommands (w : Width) : List PortInputs → List Instr
  | [] => []
  | e :: rest =>
    if accepts e then decodeFields (portCommand w e.cmd) :: acceptedCommands w rest
    else acceptedCommands w rest

/-- n rising edges, and the responses the host sees on the response port after them, in order: one for each edge
after which `rsp_valid` = 1 (R33, R46). A response just before a reset edge is dropped, so it is not among them
(R120, D25; the reading taken is log entry 20). -/
def observe : Nat → State → Option (State × List Word)
  | 0, s => some (s, [])
  | n + 1, s =>
    match step s with
    | .next t =>
      match observe n t with
      | some (u, vs) => some (u, if rspValid t then rspData t :: vs else vs)
      | none => none
    | .fault _ => none
    | .refused _ => none

/-- A field to pack: its width in bits and its value (00_scope.md R12). -/
abbrev Field := Count × Word

/-- WRITE once for each field, in order. -/
def writeAll (fields : List Field) : List Instr :=
  fields.map fun f => .write f.1 f.2

/-- READ once for each count, in order. -/
def readAll (counts : List Count) : List Instr :=
  counts.map fun c => .read c

/-- A packing: WNEW; WRITE c1, v1; ...; WRITE cn, vn; FINISH (R58, 43_properties.md). -/
def packing (fields : List Field) : List Instr :=
  .wnew :: writeAll fields ++ [.finish]

/-- An unpacking of a word: RNEW w; READ d1; ...; READ dm (R58, 43_properties.md). -/
def unpacking (w : Word) (counts : List Count) : List Instr :=
  .rnew w :: readAll counts

/-- T, the sum of the counts (R12). -/
def totalBits : List Count → Nat
  | [] => 0
  | c :: rest => c.toNat + totalBits rest

/-- T of a list of fields. -/
def fieldBits (fields : List Field) : Nat :=
  totalBits (fields.map Prod.fst)

/-- f_k = v_k mod 2^(c_k), the masked field (R85). -/
def maskedField (f : Field) : Nat :=
  f.2.toNat % 2 ^ f.1.toNat

/-- The sum over k of f_k * 2^(below_k), below_k being the total width of the fields after field k (R85). -/
def packedValue : List Field → Nat
  | [] => 0
  | f :: rest => maskedField f * 2 ^ fieldBits rest + packedValue rest

/-- The slices r_k = floor(x / 2^(W - above_k - c_k)) mod 2^(c_k), above_k being `above` and the counts before
count k (R92). -/
def slices (w : Width) (x : Nat) : Nat → List Count → List Nat
  | _, [] => []
  | above, c :: rest =>
    x / 2 ^ (w.bits - above - c.toNat) % 2 ^ c.toNat :: slices w x (above + c.toNat) rest

/-- The commands that touch the packer (R17). -/
def isPackerCommand : Instr → Bool
  | .bitsize => false
  | .mask _ => false
  | .wnew => true
  | .write _ _ => true
  | .finish => true
  | .rnew _ => false
  | .read _ => false
  | .reserved7 => false

/-- The commands that touch the unpacker (R17). -/
def isUnpackerCommand : Instr → Bool
  | .bitsize => false
  | .mask _ => false
  | .wnew => false
  | .write _ _ => false
  | .finish => false
  | .rnew _ => true
  | .read _ => true
  | .reserved7 => false

/-- The responses, among those of a list of commands, of the commands that p picks. -/
def pickResponses (p : Instr → Bool) : List Instr → List Word → List Word
  | i :: rest, v :: vs => if p i then v :: pickResponses p rest vs else pickResponses p rest vs
  | _, _ => []

end Sys2Proof.Machine
end

