-- ==== Sys2Proof/Safety.lean ====
section
/-!
DEFINITION. What counts as a safe run, in the terms claims use: the contract of 00_scope.md R10, the invariants of
10_state.md R19, and what a host owes (70_reset_and_hazards.md R126).
-/

namespace Sys2Proof.Machine

/-- The command is in contract in the state (R10, R106): MASK, WRITE and READ keep their preconditions, every other
command always is. -/
def inContract (i : Instr) (s : State) : Bool :=
  match i with
  | .bitsize => true
  | .mask n => maskInContract n s
  | .wnew => true
  | .write count _ => writeInContract count s
  | .finish => true
  | .rnew _ => true
  | .read count => readInContract count s
  | .reserved7 => true

/-- Hosts must not issue opcode 7 (R53, R126 f). -/
def isReserved (i : Instr) : Bool :=
  decide (i = .reserved7)

/-- A command sequence is in contract when each of its commands is, in the state it is executed in (R10). -/
def sequenceInContract : List Instr → State → Bool
  | [], _ => true
  | i :: rest, s =>
    inContract i s &&
      match exec i s with
      | .next t => sequenceInContract rest t
      | .fault _ => false
      | .refused _ => false

/-- A safe program of UBC-1: in contract, without opcode 7, its data operands W bits wide (R51, R53, R126). -/
def safeProgram (prog : List Instr) (s : State) : Bool :=
  prog.all (fun i => i.wellFormed s.width && !isReserved i) && sequenceInContract prog s

/-- The words of the block are W-bit words (R7, log entry 3). -/
def State.wordsFit (s : State) : Prop :=
  Word.fits s.width s.acc ∧ Word.fits s.width s.bitVec ∧ ∀ v, s.rsp = some v → Word.fits s.width v

/-- R19 (a) and (b), of a packer in contract: every bit of `acc` at position `wbits` or above is 0. -/
def State.packerClean (s : State) : Prop :=
  s.wbits ≤ s.width.bits → s.acc.toNat < 2 ^ s.wbits

/-- R19 (c), of an unpacker in contract: the cursor is the ghost counter. -/
def State.cursorTrue (s : State) : Prop :=
  s.rbits ≤ s.width.bits → s.pos.toNat = s.rbits

/-- What every state reached from reset satisfies, in contract or out of it. -/
def State.inv (s : State) : Prop :=
  s.wordsFit ∧ s.packerClean ∧ s.cursorTrue

/-- The packer's state, as WNEW, FINISH and reset leave it (R84). -/
def State.packerClear (s : State) : Prop :=
  s.acc = 0 ∧ s.wbits = 0

end Sys2Proof.Machine
end

