-- ==== Sys2Proof/Certificates/Slice0/Obligations.lean ====
section
/-!
DEFINITION. The statements for the provers, one definition each, in the order of the spec: encoding, the commands,
the datapath and its corner cases, frames, edges, invariants, the laws of 43_properties.md, several blocks,
assembly. Every statement is over every width W; none rests on the value of `draws` or `idles`.
-/

open Sys2Proof Sys2Proof.Machine

/-! ### Encoding -/

/-- 30_encoding.md R59 with R54: decoding the canonical encoding of a well-formed command gives it back. -/
def Obligations.DecodeOfEncodeIsIdentity : Prop :=
  ∀ (w : Width) (i : Instr), i.wellFormed w = true → decodeCommand w (encode w i) = .ok i

/-- 30_encoding.md R52, R59: encoding what a command word decodes to gives the word back with 0 in every field the
command ignores (`count` is used by MASK, WRITE, READ; `data` by WRITE, RNEW). -/
def Obligations.EncodeOfDecodeClearsIgnoredFields : Prop :=
  ∀ (w : Width) (cmd : Nat) (c : CommandWord), commandOfNat w cmd = .ok c →
    ∃ i, decodeCommand w cmd = .ok i ∧
      encode w i =
        c.op.toNat * 2 ^ (w.bits + 8)
          + (if c.op.toNat = 1 ∨ c.op.toNat = 3 ∨ c.op.toNat = 6 then c.count.toNat else 0) * 2 ^ w.bits
          + (if c.op.toNat = 3 ∨ c.op.toNat = 5 then c.data.toNat else 0)

/-- 30_encoding.md R54: every pattern of L bits decodes, and its top three bits alone say to which row. -/
def Obligations.EveryPatternDecodesByItsTopBits : Prop :=
  ∀ (w : Width) (cmd : Nat), cmd < 2 ^ w.commandBits →
    ∃ i, decodeCommand w cmd = .ok i ∧ (canonicalFields i).op.toNat = cmd / 2 ^ (w.bits + 8)

/-- 60_exceptions.md R117 (an inference of the spec): a number of more than L bits is refused by name. -/
def Obligations.OverlongWordIsRejected : Prop :=
  ∀ (w : Width) (cmd : Nat), 2 ^ w.commandBits ≤ cmd → decodeCommand w cmd = .error .wrongLength

/-- 30_encoding.md R47, R48: the length of a command word, and its three fields by position. -/
def Obligations.CommandWordFieldsByPosition : Prop :=
  ∀ (w : Width) (c : CommandWord), Word.fits w c.data →
    w.commandBits = w.bits + 11 ∧ (w.bits + 8) % 4 = 0 ∧
    commandToNat w c = c.op.toNat * 2 ^ (w.bits + 8) + c.count.toNat * 2 ^ w.bits + c.data.toNat ∧
    commandToNat w c < 2 ^ w.commandBits ∧
    commandToNat w c / 2 ^ (w.bits + 8) = c.op.toNat ∧
    commandToNat w c / 2 ^ w.bits = c.op.toNat * 2 ^ 8 + c.count.toNat ∧
    commandToNat w c % 2 ^ w.bits = c.data.toNat ∧
    commandOfNat w (commandToNat w c) = .ok c

/-- 95_test_vectors.md E1 to E16: words written out from the encoding decode to the commands they stand for. -/
def Obligations.SampleCommandWordsDecode : Prop :=
  decodeCommand .w8 0x00000 = .ok .bitsize ∧
  decodeCommand .w8 0x10300 = .ok (.mask 3) ∧
  decodeCommand .w8 0x20000 = .ok .wnew ∧
  decodeCommand .w8 0x30305 = .ok (.write 3 5) ∧
  decodeCommand .w8 0x40000 = .ok .finish ∧
  decodeCommand .w8 0x500B1 = .ok (.rnew 0xB1) ∧
  decodeCommand .w8 0x60500 = .ok (.read 5) ∧
  decodeCommand .w8 0x70000 = .ok .reserved7 ∧
  decodeCommand .w16 0x30400FA = .ok (.write 4 0xFA) ∧
  decodeCommand .w32 0x10C00000000 = .ok (.mask 12) ∧
  decodeCommand .w32 0x500DEADBEEF = .ok (.rnew 0xDEADBEEF) ∧
  decodeCommand .w64 0x32000000000DEADBEEF = .ok (.write 32 0xDEADBEEF) ∧
  decodeCommand .w128 0x3390000000000000000000000000000000C = .ok (.write 57 12) ∧
  decodeCommand .w128 0x68000000000000000000000000000000000 = .ok (.read 128) ∧
  decodeCommand .w8 0x4ABCD = .ok .finish ∧
  decodeCommand .w8 0x603FF = .ok (.read 3)

/-! ### The commands -/

/-- 40_datapath.md R72: BITSIZE answers the number W, which fits in a word, and changes nothing else. -/
def Obligations.BitsizeAnswersTheWidth : Prop :=
  (∀ count data, decodeFields { op := 0, count := count, data := data } = .bitsize) ∧
  ∀ s : State, ∃ r : Word, r.toNat = s.width.bits ∧ Word.fits s.width r ∧
    exec .bitsize s = .next { s with rsp := some r }

/-- 40_datapath.md R73: in contract MASK n answers SHR(ALLONES, W - n) = 2^n - 1 and changes nothing else; for n = 0
that is 0 and for n = W ALLONES. -/
def Obligations.MaskAnswersTheLowOnes : Prop :=
  (∀ count data, decodeFields { op := 1, count := count, data := data } = .mask count) ∧
  ∀ (n : Count) (s : State), n.toNat ≤ s.width.bits →
    ∃ r : Word, r.toNat = 2 ^ n.toNat - 1 ∧ r = shr (allOnes s.width) (s.width.bits - n.toNat) ∧
      (n.toNat = 0 → r = 0) ∧ (n.toNat = s.width.bits → r = allOnes s.width) ∧
      exec (.mask n) s = .next { s with rsp := some r }

/-- 40_datapath.md R74: out of contract MASK n answers a free W-bit value and changes nothing else. That the value is the
one of the model's present draw number, and that the number grows by 1, is the model's choice (log entry 6). -/
def Obligations.MaskOutOfContractDrawsItsResponse : Prop :=
  ∀ (n : Count) (s : State), s.width.bits < n.toNat →
    Word.fits s.width (anyWord s.width s.draws) ∧
    exec (.mask n) s = .next { s with rsp := some (anyWord s.width s.draws), draws := s.draws + 1 }

/-- 41_writer.md R78: WNEW clears the packer, in every state, and answers 0; a packer out of contract is in contract
again. -/
def Obligations.WnewClearsThePacker : Prop :=
  (∀ count data, decodeFields { op := 2, count := count, data := data } = .wnew) ∧
  ∀ s : State, exec .wnew s = .next { s with acc := 0, wbits := 0, rsp := some 0 } ∧
    ∀ t, exec .wnew s = .next t → t.wbits ≤ t.width.bits

/-- 41_writer.md R79: in contract WRITE shifts the accumulator left by `count` and ORs in the low `count` bits of the
value, and answers 0. The clause under `acc` < 2^wbits (R19), that the result is a sum and no bit is lost, is an
inference that R79 marks as its own. -/
def Obligations.WriteAppendsAField : Prop :=
  (∀ count data, decodeFields { op := 3, count := count, data := data } = .write count data) ∧
  ∀ (count : Count) (value : Word) (s : State), s.wbits + count.toNat ≤ s.width.bits →
    ∃ a : Word,
      a.toNat = (s.acc.toNat * 2 ^ count.toNat % 2 ^ s.width.bits) ||| (value.toNat % 2 ^ count.toNat) ∧
      (s.acc.toNat < 2 ^ s.wbits →
        a.toNat = s.acc.toNat * 2 ^ count.toNat + value.toNat % 2 ^ count.toNat ∧
        a.toNat < 2 ^ (s.wbits + count.toNat)) ∧
      exec (.write count value) s =
        .next { s with acc := a, wbits := s.wbits + count.toNat, rsp := some 0 }

/-- 41_writer.md R80: a WRITE past W bits leaves a free value in `acc`, counts its bits and answers 0; until WNEW or
FINISH every command leaves the packer out of contract with a free value in `acc`, every WRITE is out of contract,
and FINISH answers that free value. That the values are those of the model's draw numbers, and that each draw adds
1 to the number, is the model's choice (log entry 6). -/
def Obligations.WritePastTheWordDrawsTheAccumulator : Prop :=
  ∀ (count : Count) (value : Word) (s : State), s.width.bits < s.wbits + count.toNat →
    exec (.write count value) s =
      .next { s with
        acc := anyWord s.width s.draws, wbits := s.wbits + count.toNat, rsp := some 0, draws := s.draws + 1 } ∧
    ∀ (cmds : List Instr) (u : State) (rs : List Word), (∀ i ∈ cmds, i ≠ .wnew ∧ i ≠ .finish) →
      runCommands (.write count value :: cmds) s = some (u, rs) →
      u.width.bits < u.wbits ∧ (∀ c, writeInContract c u = false) ∧
      ∃ d, u.acc = anyWord u.width d ∧
        exec .finish u = .next { u with acc := 0, wbits := 0, rsp := some (anyWord u.width d) }

/-- 41_writer.md R82: FINISH answers the accumulator as it was before the command, and clears the packer. -/
def Obligations.FinishAnswersTheAccumulator : Prop :=
  (∀ count data, decodeFields { op := 4, count := count, data := data } = .finish) ∧
  ∀ s : State, exec .finish s = .next { s with acc := 0, wbits := 0, rsp := some s.acc }

/-- 42_reader.md R87: RNEW loads the word and puts the cursor at 0, in every state, and answers 0; an unpacker out of
contract is in contract again. -/
def Obligations.RnewLoadsTheUnpacker : Prop :=
  (∀ count data, decodeFields { op := 5, count := count, data := data } = .rnew data) ∧
  ∀ (value : Word) (s : State),
    exec (.rnew value) s = .next { s with bitVec := value, pos := 0, rbits := 0, rsp := some 0 } ∧
    ∀ t, exec (.rnew value) s = .next t → t.rbits ≤ t.width.bits

/-- 42_reader.md R88: in contract, with the cursor equal to the ghost counter (R19), READ answers bit_vec shifted right and
masked, and moves the cursor. The bit-by-bit clause (the `count` bits below the cursor, right-justified) is an
inference that R88 marks as its own; that the cursor does not wrap is R66's. -/
def Obligations.ReadExtractsTheNextField : Prop :=
  (∀ count data, decodeFields { op := 6, count := count, data := data } = .read count) ∧
  ∀ (count : Count) (s : State), s.rbits + count.toNat ≤ s.width.bits → s.pos.toNat = s.rbits →
    ∃ r : Word,
      r.toNat = s.bitVec.toNat / 2 ^ (s.width.bits - count.toNat - s.pos.toNat) % 2 ^ count.toNat ∧
      (∀ j, r.getLsbD j =
        (decide (j < count.toNat) && s.bitVec.getLsbD (s.width.bits - s.pos.toNat - count.toNat + j))) ∧
      (s.pos + count).toNat = s.pos.toNat + count.toNat ∧
      exec (.read count) s =
        .next { s with pos := s.pos + count, rbits := s.rbits + count.toNat, rsp := some r }

/-- 42_reader.md R89: a READ past W bits answers a free word, leaves a free cursor, keeps `bit_vec` and counts its bits;
until RNEW every READ is out of contract, READ 0 among them, and `bit_vec` keeps its value. That the values are
those of the model's draw numbers, and that each draw adds 1 to the number, is the model's choice (log entry 6). -/
def Obligations.ReadPastTheWordDrawsResponseAndCursor : Prop :=
  ∀ (count : Count) (s : State), s.width.bits < s.rbits + count.toNat →
    exec (.read count) s =
      .next { s with
        pos := anyCursor s.draws, rbits := s.rbits + count.toNat,
        rsp := some (anyWord s.width s.draws), draws := s.draws + 1 } ∧
    ∀ (cmds : List Instr) (u : State) (rs : List Word), (∀ i ∈ cmds, ∀ v, i ≠ .rnew v) →
      runCommands (.read count :: cmds) s = some (u, rs) →
      u.width.bits < u.rbits ∧ (∀ c, readInContract c u = false) ∧ u.bitVec = s.bitVec ∧
      ∃ d, u.pos = anyCursor d

/-- 30_encoding.md R53, the hardware's behaviour: opcode 7, with any count and data, changes nothing and answers 0. That
the model executes it, where R53 advises a model to refuse it, is the model's choice (log entry 8). -/
def Obligations.ReservedOpcodeDoesNothing : Prop :=
  (∀ count data, decodeFields { op := 7, count := count, data := data } = .reserved7) ∧
  ∀ s : State, exec .reserved7 s = .next { s with rsp := some 0 }

/-- 20_memory.md R35 (its table), R46: WNEW, WRITE, RNEW and the reserved opcode answer the all-zero word in every state,
in contract or out of it, so `acc`, `bit_vec` and `pos` show only in other commands' responses. The port shows it
unless the coming edge is a reset edge (R120; the reading is the model's choice, log entry 20). -/
def Obligations.SilentCommandsAnswerZero : Prop :=
  ∀ (i : Instr) (s t : State),
    (i = .wnew ∨ i = .reserved7 ∨ (∃ c v, i = .write c v) ∨ ∃ v, i = .rnew v) → exec i s = .next t →
    t.rsp = some 0 ∧ ((edgeInputs t).rst = false → rspValid t = true ∧ rspData t = 0)

/-! ### Corner cases -/

/-- 41_writer.md R81 (an inference of the spec): a zero-width WRITE stores nothing, also on a full packer; a WRITE of W
bits on a clear packer writes the whole word; a WRITE of value 0 appends zero bits. -/
def Obligations.WriteCornerCases : Prop :=
  (∀ (value : Word) (s : State), s.wbits ≤ s.width.bits → Word.fits s.width s.acc →
    exec (.write 0 value) s = .next { s with rsp := some 0 }) ∧
  (∀ (count : Count) (value : Word) (s : State), s.packerClear → count.toNat = s.width.bits →
    Word.fits s.width value →
    exec (.write count value) s = .next { s with acc := value, wbits := s.width.bits, rsp := some 0 }) ∧
  (∀ (count : Count) (s : State), s.wbits + count.toNat ≤ s.width.bits → s.packerClean →
    ∃ a : Word, a.toNat = s.acc.toNat * 2 ^ count.toNat ∧
      exec (.write count 0) s = .next { s with acc := a, wbits := s.wbits + count.toNat, rsp := some 0 })

/-- 42_reader.md R90 (an inference of the spec): READ 0 answers 0 at every cursor; READ W from the start answers the
word; a READ that reaches the end answers the lowest bits; READ 1 answers one bit; no response has a bit at
position `count` or above; the word 0 is read as 0. -/
def Obligations.ReadCornerCases : Prop :=
  (∀ s : State, s.rbits ≤ s.width.bits → s.pos.toNat = s.rbits →
    exec (.read 0) s = .next { s with rsp := some 0 }) ∧
  ∀ (count : Count) (s t : State), s.rbits + count.toNat ≤ s.width.bits → s.pos.toNat = s.rbits →
    Word.fits s.width s.bitVec → exec (.read count) s = .next t →
    ∃ r : Word, t.rsp = some r ∧ r.toNat < 2 ^ count.toNat ∧
      (count.toNat = s.width.bits → r = s.bitVec ∧ t.pos.toNat = s.width.bits) ∧
      (s.pos.toNat + count.toNat = s.width.bits → r.toNat = s.bitVec.toNat % 2 ^ count.toNat ∧
        ∀ c, readInContract c t = true → c = 0) ∧
      (count = 1 → r.toNat = (s.bitVec.getLsbD (s.width.bits - 1 - s.pos.toNat)).toNat) ∧
      (s.bitVec = 0 → r = 0)

/-- 41_writer.md R83 (an inference of the spec): FINISH of an empty packer answers 0, and of two FINISH in a row the
second does; a partly filled word is answered right-justified, 0 above its fields. -/
def Obligations.FinishCornerCases : Prop :=
  (∀ s : State, s.packerClean → s.wbits ≤ s.width.bits →
    s.acc.toNat < 2 ^ s.wbits ∧ exec .finish s = .next { s with acc := 0, wbits := 0, rsp := some s.acc }) ∧
  (∀ s : State, s.packerClean → s.wbits = 0 → s.acc = 0) ∧
  ∀ s : State, runCommands [.finish, .finish] s =
    some ({ s with acc := 0, wbits := 0, rsp := some 0 }, [s.acc, 0])

/-- 41_writer.md R84: after FINISH the packer is in exactly the state WNEW or a reset leaves it in, and a new packing
may begin at once: any WRITE of at most W bits is in contract. -/
def Obligations.FinishLeavesAFreshPacker : Prop :=
  ∀ s t u r : State, exec .finish s = .next t → exec .wnew s = .next u →
    (edgeInputs s).rst = true → step s = .next r →
    t.acc = 0 ∧ t.wbits = 0 ∧ u.acc = t.acc ∧ u.wbits = t.wbits ∧ r.acc = t.acc ∧ r.wbits = t.wbits ∧
    ∀ c : Count, c.toNat ≤ t.width.bits → writeInContract c t = true

/-! ### The datapath -/

/-- 40_datapath.md R62, R63, R67 (inferences of the spec): the two shifts by value and by bit, for every amount from 0 to
W, W among them. -/
def Obligations.ShiftersByValueAndByBit : Prop :=
  ∀ (w : Width) (x : Word) (s : Nat), Word.fits w x → s ≤ w.bits →
    (shl w x s).toNat = x.toNat * 2 ^ s % 2 ^ w.bits ∧
    (∀ i, (shl w x s).getLsbD i = (decide (s ≤ i) && decide (i < w.bits) && x.getLsbD (i - s))) ∧
    shl w x 0 = x ∧ shl w x w.bits = 0 ∧
    (shr x s).toNat = x.toNat / 2 ^ s ∧
    (∀ i, (shr x s).getLsbD i = (decide (i + s < w.bits) && x.getLsbD (i + s))) ∧
    shr x 0 = x ∧ shr x w.bits = 0

/-- 40_datapath.md R64: for n from 0 to W, NMASK(n) is ALLONES shifted right by W - n, and has exactly the low n bits
set. -/
def Obligations.MaskGeneratorSetsTheLowBits : Prop :=
  ∀ (w : Width) (n : Nat), n ≤ w.bits →
    nmask w n = shr (allOnes w) (w.bits - n) ∧ (nmask w n).toNat = 2 ^ n - 1 ∧
    ∀ i, (nmask w n).getLsbD i = decide (i < n)

/-- 40_datapath.md R65 (an inference of the spec): AND with NMASK(n) is the remainder mod 2^n; what WRITE merges never
has a 1 where the shifted accumulator has one, so its OR is a sum without carries. -/
def Obligations.MergedFieldMeetsVacatedBits : Prop :=
  ∀ (w : Width) (x value : Word) (c : Nat), c ≤ w.bits →
    (value &&& nmask w c).toNat = value.toNat % 2 ^ c ∧
    shl w x c &&& (value &&& nmask w c) = 0 ∧
    (shl w x c ||| (value &&& nmask w c)).toNat = (shl w x c).toNat + (value &&& nmask w c).toNat

/-! ### Frames -/

/-- Frame of the packer's commands WNEW, WRITE and FINISH (10_state.md R17, R18): the unpacker, the width and the host's
inputs are unchanged; a draw is made only by a WRITE out of contract. The block has no memory, flags or special
registers. -/
def Obligations.PackerCommandsLeaveTheRest : Prop :=
  ∀ (i : Instr) (s t : State), (i = .wnew ∨ i = .finish ∨ ∃ c v, i = .write c v) → exec i s = .next t →
    t.bitVec = s.bitVec ∧ t.pos = s.pos ∧ t.rbits = s.rbits ∧ t.width = s.width ∧ t.inputs = s.inputs ∧
    t.idles = s.idles ∧ (inContract i s = true → t.draws = s.draws)

/-- Frame of the unpacker's commands RNEW and READ (10_state.md R17, R18; 42_reader.md R91): the packer, the width and
the host's inputs are unchanged; READ leaves `bit_vec`, in contract or out of it. A draw is made only by a READ
out of contract, or where the cursor is not the ghost counter (no state reached from reset, R19). -/
def Obligations.UnpackerCommandsLeaveTheRest : Prop :=
  ∀ (i : Instr) (s t : State), ((∃ v, i = .rnew v) ∨ ∃ c, i = .read c) → exec i s = .next t →
    t.acc = s.acc ∧ t.wbits = s.wbits ∧ t.width = s.width ∧ t.inputs = s.inputs ∧ t.idles = s.idles ∧
    ((∃ c, i = .read c) → t.bitVec = s.bitVec) ∧ (inContract i s = true → s.cursorTrue → t.draws = s.draws)

/-- Frame of BITSIZE, MASK and the reserved opcode (10_state.md R17, 20_memory.md R42): they change no register and no
ghost counter, in contract or out of it; only the response. -/
def Obligations.StatelessCommandsLeaveEveryRegister : Prop :=
  ∀ (i : Instr) (s t : State), (i = .bitsize ∨ i = .reserved7 ∨ ∃ n, i = .mask n) → exec i s = .next t →
    t.acc = s.acc ∧ t.wbits = s.wbits ∧ t.bitVec = s.bitVec ∧ t.pos = s.pos ∧ t.rbits = s.rbits ∧
    t.width = s.width ∧ t.inputs = s.inputs ∧ t.idles = s.idles ∧ (inContract i s = true → t.draws = s.draws)

/-- 10_state.md R14 to R16, over all edges: `acc` changes only by a reset, WNEW, WRITE or FINISH; `bit_vec` only by a
reset (to 0) or RNEW (to its operand); `pos` only by a reset, RNEW or READ. -/
def Obligations.RegistersHaveFewWriters : Prop :=
  ∀ s t : State, step s = .next t →
    let i := decodeFields (portCommand s.width (edgeInputs s).cmd)
    let reset := (edgeInputs s).rst = true
    let took := accepts (edgeInputs s) = true
    (t.acc ≠ s.acc → reset ∧ t.acc = 0 ∨ took ∧ (i = .wnew ∨ i = .finish ∨ ∃ c v, i = .write c v)) ∧
    (t.bitVec ≠ s.bitVec → reset ∧ t.bitVec = 0 ∨ took ∧ i = .rnew t.bitVec) ∧
    (t.pos ≠ s.pos → reset ∧ t.pos = 0 ∨ took ∧ ((∃ v, i = .rnew v) ∨ ∃ c, i = .read c))

/-! ### Edges -/

/-- A step runs the decoded command: when the host presents the command word `cmd` and `rst` is 0, the step is `exec` of
what `cmd` decodes to, with the edge's inputs used up (20_memory.md R31). -/
def Obligations.StepRunsTheDecodedCommand : Prop :=
  ∀ (s : State) (e : PortInputs) (rest : List PortInputs) (cmd : Nat) (i : Instr),
    s.inputs = e :: rest → e.rst = false → e.cmdValid = true → commandOfNat s.width cmd = .ok e.cmd →
    decodeCommand s.width cmd = .ok i →
    i.wellFormed s.width = true ∧ step s = exec i { s with inputs := rest }

/-- 20_memory.md R31: what an edge does with the ports' values. The response of an edge without a command is R33, the reset
edge R119, R28 and R120; that `cmd_data` is cut to the W wires of the port is the model's reading (log entry 18),
and the counters `idles` and `draws` are the model's own (log entries 6 and 7). -/
def Obligations.EdgeAcceptsResetsOrHolds : Prop :=
  ∀ (s : State) (e : PortInputs) (rest : List PortInputs), s.inputs = e :: rest →
    (e.rst = false → e.cmdValid = true →
      step s = exec (decodeFields { e.cmd with data := e.cmd.data &&& allOnes s.width }) { s with inputs := rest }) ∧
    (e.rst = false → e.cmdValid = false →
      step s = .next { s with inputs := rest, rsp := none, idles := s.idles + 1 }) ∧
    (e.rst = true →
      step s = .next { State.resetAt s.width with inputs := rest, draws := s.draws, idles := s.idles + 1 })

/-- 70_reset_and_hazards.md R119: a reset edge gives all three registers and both ghost counters their reset values
whatever they held, accepts no command, and leaves the block in contract. -/
def Obligations.ResetWinsOverEverything : Prop :=
  ∀ s : State, (edgeInputs s).rst = true →
    accepts (edgeInputs s) = false ∧
    ∃ t, step s = .next t ∧ t.acc = 0 ∧ t.bitVec = 0 ∧ t.pos = 0 ∧ t.wbits = 0 ∧ t.rbits = 0 ∧
      t.width = s.width ∧ rspValid t = false ∧ t.inputs = s.inputs.tail ∧ t.inv

/-- 20_memory.md R37: while the host presents nothing, for any number of edges, the block holds its state. That the host
is silent when `inputs` is empty is the model's choice (log entry 4). -/
def Obligations.SilenceChangesNothing : Prop :=
  ∀ (n : Nat) (s : State), s.inputs = [] →
    ∃ t, stepN n s = some t ∧ t.acc = s.acc ∧ t.bitVec = s.bitVec ∧ t.pos = s.pos ∧ t.wbits = s.wbits ∧
      t.rbits = s.rbits ∧ t.width = s.width ∧ t.draws = s.draws ∧ (0 < n → rspValid t = false)

/-- 20_memory.md R33 with 70_reset_and_hazards.md R120: the response of a command accepted at an edge stands until the next
edge, and only then is `rsp_valid` 1. Where the next edge is a reset edge that one cycle is dropped: `rsp_valid` is 0
and a host sees no response at either edge. That R120 prevails over R33 there is the model's choice (log entry 20),
and so is the numbering of the free values on `rsp_data` (log entry 7). -/
def Obligations.ResponseStandsOneCycle : Prop :=
  ∀ s t : State, step s = .next t →
    (accepts (edgeInputs s) = true → ∃ v, t.rsp = some v ∧
      ((edgeInputs t).rst = false → rspValid t = true ∧ rspData t = v) ∧
      ((edgeInputs t).rst = true → rspValid t = false ∧ rspData t = lostWord t.width t.idles ∧
        ∃ u, step t = .next u ∧ rspValid u = false ∧ observe 2 s = some (u, []))) ∧
    (accepts (edgeInputs s) = false → rspValid t = false ∧ rspData t = idleWord t.width t.idles)

/-- 20_memory.md R32: `cmd_ready` is 1 whenever `rst` is 0 and 0 while it is 1; the block accepts a command at every edge
without reset at which one is presented, whatever its state and the command. -/
def Obligations.BlockIsAlwaysReady : Prop :=
  (∀ rst, cmdReady rst = !rst) ∧
  ∀ (s : State) (c : CommandWord), ∃ t v,
    step (presentCommand c s) = .next t ∧ accepts (edgeInputs (presentCommand c s)) = true ∧ t.rsp = some v

/-- 60_exceptions.md R105: no command, operand value or state makes the block stop, hang or refuse: every command and every
edge answers a next state, and there is no fault. -/
def Obligations.NothingStopsTheBlock : Prop :=
  (∀ (i : Instr) (s : State), ∃ t v, exec i s = .next t ∧ t.rsp = some v) ∧
  (∀ s : State, ∃ t, step s = .next t) ∧
  ∀ _ : Fault, False

/-! ### Reset and invariants -/

/-- 10_state.md R28: the reset values, for every width; with them the unpacker is exactly the unpacker after `RNEW 0`.
The spec marks `bit_vec` = 0 as its own choice (D15). -/
def Obligations.ResetStateValues : Prop :=
  ∀ w : Width,
    (State.resetAt w).width = w ∧ (State.resetAt w).acc = 0 ∧ (State.resetAt w).bitVec = 0 ∧
    (State.resetAt w).pos = 0 ∧ (State.resetAt w).wbits = 0 ∧ (State.resetAt w).rbits = 0 ∧
    ∀ s t : State, exec (.rnew 0) s = .next t →
      t.bitVec = (State.resetAt w).bitVec ∧ t.pos = (State.resetAt w).pos ∧ t.rbits = (State.resetAt w).rbits

/-- Every step keeps the invariant of 10_state.md R19 (an inference of the spec), in contract and out of it: words fit W
bits; while the packer is in contract `acc` is below 2^wbits; while the unpacker is, `pos` is the ghost counter. -/
def Obligations.EveryStepKeepsTheInvariant : Prop :=
  ∀ s t : State, s.inv → step s = .next t → t.inv

/-- The reset state of every width meets the invariant. -/
def Obligations.ResetMeetsTheInvariant : Prop :=
  ∀ w : Width, (State.resetAt w).inv

/-- 10_state.md R19 (b) and (c), R10: a command sequence in contract keeps both counters within W. -/
def Obligations.ContractKeepsCountersInTheWord : Prop :=
  ∀ (prog : List Instr) (s : State), s.wbits ≤ s.width.bits → s.rbits ≤ s.width.bits →
    sequenceInContract prog s = true →
    ∃ t rs, runCommands prog s = some (t, rs) ∧ t.wbits ≤ t.width.bits ∧ t.rbits ≤ t.width.bits

/-- 00_scope.md R5: W is one of the five widths, nothing changes it, BITSIZE says it, and any other width is refused. -/
def Obligations.WidthIsFixed : Prop :=
  (∀ w : Width, w.bits = 8 ∨ w.bits = 16 ∨ w.bits = 32 ∨ w.bits = 64 ∨ w.bits = 128) ∧
  (∀ s t : State, step s = .next t → t.width = s.width) ∧
  ∀ (n : Nat) (w : Width), widthOfNat n = some w ↔ w.bits = n

/-- 10_state.md R21: the ghost counters' updates, command by command. That each stays above W until its unit is
re-initialised, and every WRITE or READ until then is out of contract, is an inference that R21 marks as its own. -/
def Obligations.GhostCountersFollowTheCommands : Prop :=
  (∀ (i : Instr) (s t : State), exec i s = .next t →
    t.wbits = (match i with
      | .wnew => 0
      | .finish => 0
      | .write c _ => s.wbits + c.toNat
      | _ => s.wbits) ∧
    t.rbits = (match i with
      | .rnew _ => 0
      | .read c => s.rbits + c.toNat
      | _ => s.rbits) ∧
    (s.width.bits < s.wbits → i ≠ .wnew → i ≠ .finish →
      t.width.bits < t.wbits ∧ ∀ c, writeInContract c t = false) ∧
    (s.width.bits < s.rbits → (∀ v, i ≠ .rnew v) → t.width.bits < t.rbits ∧ ∀ c, readInContract c t = false)) ∧
  ∀ s t : State, (edgeInputs s).rst = true → step s = .next t → t.wbits = 0 ∧ t.rbits = 0

/-! ### The laws -/

/-- 41_writer.md R85, 43_properties.md R96 (inferences of the spec): the packed word in closed form, from a clear packer
and as a whole packing from any state, and what the packer holds after the FINISH. -/
def Obligations.PackedWordClosedForm : Prop :=
  (∀ (fields : List Field) (s : State), s.packerClear → fieldBits fields ≤ s.width.bits →
    ∃ t rs, runCommands (writeAll fields) s = some (t, rs) ∧ t.acc.toNat = packedValue fields ∧
      t.wbits = fieldBits fields) ∧
  ∀ (fields : List Field) (s : State), fieldBits fields ≤ s.width.bits →
    ∃ t rs p, runCommands (packing fields) s = some (t, rs ++ [p]) ∧ p.toNat = packedValue fields ∧
      p.toNat < 2 ^ fieldBits fields ∧ t.packerClear

/-- 41_writer.md R85, 43_properties.md R99 (inferences of the spec): field k of a packing occupies the bits from below_k
up, and earlier fields are above later ones: dividing out the fields after it leaves it in the low bits. -/
def Obligations.EachFieldHasItsPlace : Prop :=
  ∀ (before after : List Field) (f : Field) (s t : State) (rs : List Word),
    s.packerClear → fieldBits (before ++ f :: after) ≤ s.width.bits →
    runCommands (writeAll (before ++ f :: after)) s = some (t, rs) →
    t.acc.toNat / 2 ^ fieldBits after % 2 ^ f.1.toNat = maskedField f ∧
    t.acc.toNat / 2 ^ (fieldBits after + f.1.toNat) = packedValue before ∧
    t.acc.toNat % 2 ^ fieldBits after = packedValue after

/-- 42_reader.md R92 (an inference of the spec): the responses of an unpacking in closed form, from any state. -/
def Obligations.FieldsReadInOrder : Prop :=
  ∀ (x : Word) (counts : List Count) (s : State), totalBits counts ≤ s.width.bits →
    ∃ t rs, runCommands (unpacking x counts) s = some (t, 0 :: rs) ∧
      rs.map BitVec.toNat = slices s.width x.toNat 0 counts ∧
      t.pos.toNat = totalBits counts ∧ t.bitVec = x

/-- 43_properties.md R97 (the source's round-trip law as the spec corrects it): when the counts sum to exactly W, reading
the packed word with the same counts returns every field masked to its width. -/
def Obligations.RoundTripOfAFullWord : Prop :=
  ∀ (fields : List Field) (s : State), fieldBits fields = s.width.bits →
    ∃ t u rs p vs, runCommands (packing fields) s = some (t, rs ++ [p]) ∧
      runCommands (unpacking p (fields.map Prod.fst)) t = some (u, 0 :: vs) ∧
      vs.map BitVec.toNat = fields.map maskedField

/-- 43_properties.md R98 (inferences of the spec): with T < W the fields come back after a padding READ of W - T bits
(a), or when the packing is padded at its end (c); read with the same counts directly, the slices of the
right-justified word come back (b), which are not the fields in the spec's counterexample. -/
def Obligations.RoundTripOfAPartlyFilledWord : Prop :=
  (∀ (fields : List Field) (s : State), fieldBits fields < s.width.bits →
    ∃ t rs p, runCommands (packing fields) s = some (t, rs ++ [p]) ∧
      (∃ u vs, runCommands (unpacking p (BitVec.ofNat 8 (s.width.bits - fieldBits fields) :: fields.map Prod.fst)) t =
          some (u, 0 :: 0 :: vs) ∧ vs.map BitVec.toNat = fields.map maskedField) ∧
      (∃ u vs, runCommands (unpacking p (fields.map Prod.fst)) t = some (u, 0 :: vs) ∧
        vs.map BitVec.toNat = slices s.width (packedValue fields) 0 (fields.map Prod.fst)) ∧
      ∃ t' rs' p' u vs,
        runCommands (packing (fields ++ [(BitVec.ofNat 8 (s.width.bits - fieldBits fields), 0)])) s =
          some (t', rs' ++ [p']) ∧
        runCommands (unpacking p' (fields.map Prod.fst)) t' = some (u, 0 :: vs) ∧
        vs.map BitVec.toNat = fields.map maskedField) ∧
  ∀ s : State, s.width = .w8 →
    ∃ t u, runCommands (packing [(4, 0xA)]) s = some (t, [0, 0, 0x0A]) ∧
      runCommands (unpacking 0x0A [4]) t = some (u, [0, 0]) ∧ slices .w8 0x0A 0 [4, 4] = [0, 0xA]

/-- 42_reader.md R93 (an inference of the spec): the responses, put together most significant first, are the top S bits of
the word, S the sum of the counts; with S = W they are the word. -/
def Obligations.ResponsesReassembleTheWord : Prop :=
  ∀ (x : Word) (counts : List Count) (s : State), Word.fits s.width x → totalBits counts ≤ s.width.bits →
    ∃ t rs, runCommands (unpacking x counts) s = some (t, 0 :: rs) ∧
      packedValue (counts.zip rs) = x.toNat / 2 ^ (s.width.bits - totalBits counts) ∧
      (totalBits counts = s.width.bits → packedValue (counts.zip rs) = x.toNat)

/-- 43_properties.md R103 (an inference of the spec): unpacking a word at any boundaries that cover it and repacking the
responses with the same counts restores it. -/
def Obligations.InverseRoundTrip : Prop :=
  ∀ (x : Word) (counts : List Count) (s : State), Word.fits s.width x → totalBits counts = s.width.bits →
    ∃ t u rs vs, runCommands (unpacking x counts) s = some (t, 0 :: rs) ∧
      runCommands (packing (counts.zip rs)) t = some (u, vs ++ [x])

/-- 43_properties.md R104 (an inference of the spec): two WRITEs have the effect of the one WRITE of the joined field; two
READs return the two halves of what one READ returns; zero-width fields have no effect. -/
def Obligations.FieldsSplitAndMerge : Prop :=
  (∀ (a b : Count) (x y : Word) (s : State), s.wbits + a.toNat + b.toNat ≤ s.width.bits →
    ∃ t v, v.toNat = x.toNat % 2 ^ a.toNat * 2 ^ b.toNat + y.toNat % 2 ^ b.toNat ∧
      runCommands [.write a x, .write b y] s = some (t, [0, 0]) ∧
      runCommands [.write (a + b) v] s = some (t, [0])) ∧
  (∀ (a b : Count) (s : State), s.rbits + a.toNat + b.toNat ≤ s.width.bits → s.pos.toNat = s.rbits →
    ∃ t u r1 r2 r, runCommands [.read a, .read b] s = some (t, [r1, r2]) ∧
      runCommands [.read (a + b)] s = some (u, [r]) ∧
      r1.toNat * 2 ^ b.toNat + r2.toNat = r.toNat ∧ t.pos = u.pos ∧ t.rbits = u.rbits ∧ t.bitVec = u.bitVec) ∧
  ∀ s : State, s.inv →
    (s.wbits ≤ s.width.bits → ∀ v, exec (.write 0 v) s = .next { s with rsp := some 0 }) ∧
    (s.rbits ≤ s.width.bits → exec (.read 0) s = .next { s with rsp := some 0 })

/-- 43_properties.md R95 (an inference of the spec): a WRITE stores only the low `count` bits of its value, which are then
the low bits of `acc`; values that agree in them are indistinguishable. -/
def Obligations.MaskingLaw : Prop :=
  ∀ (count : Count) (value : Word) (s : State), s.wbits + count.toNat ≤ s.width.bits →
    (∃ t, exec (.write count value) s = .next t ∧ t.acc.toNat % 2 ^ count.toNat = value.toNat % 2 ^ count.toNat) ∧
    ∀ value' : Word, value'.toNat % 2 ^ count.toNat = value.toNat % 2 ^ count.toNat →
      exec (.write count value') s = exec (.write count value) s

/-! ### Independence, determinism, order -/

/-- 10_state.md R17, R18 (the second an inference of the spec): what a packer command answers and leaves in the packer
depends on the width, the packer and the draw number alone; likewise an unpacker command; the others depend on
the width and the draw number alone.
Where a command draws, equal draw numbers give both runs the same free value: that clause is the model's choice and
no rule of the spec (log entry 6). -/
def Obligations.UnitsSeeOnlyTheirOwnState : Prop :=
  ∀ (i : Instr) (s s' t t' : State), s.width = s'.width → s.draws = s'.draws →
    exec i s = .next t → exec i s' = .next t' →
    (isPackerCommand i = true → s.acc = s'.acc → s.wbits = s'.wbits →
      t.rsp = t'.rsp ∧ t.acc = t'.acc ∧ t.wbits = t'.wbits) ∧
    (isUnpackerCommand i = true → s.bitVec = s'.bitVec → s.pos = s'.pos → s.rbits = s'.rbits →
      t.rsp = t'.rsp ∧ t.bitVec = t'.bitVec ∧ t.pos = t'.pos ∧ t.rbits = t'.rbits) ∧
    (isPackerCommand i = false → isUnpackerCommand i = false → t.rsp = t'.rsp)

/-- 10_state.md R18, 60_exceptions.md R115 (inferences of the spec): in a sequence in contract that interleaves both units'
commands in any way, each unit answers and ends as if its own commands had been issued alone. The cursor is the
ghost counter at its start, as in every state reached from reset (R19). -/
def Obligations.InterleavingChangesNoResponse : Prop :=
  ∀ (prog : List Instr) (s : State), s.cursorTrue → sequenceInContract prog s = true →
    ∃ t rs, runCommands prog s = some (t, rs) ∧
      (∃ u, runCommands (prog.filter isPackerCommand) s = some (u, pickResponses isPackerCommand prog rs) ∧
        u.acc = t.acc ∧ u.wbits = t.wbits) ∧
      ∃ u, runCommands (prog.filter isUnpackerCommand) s = some (u, pickResponses isUnpackerCommand prog rs) ∧
        u.bitVec = t.bitVec ∧ u.pos = t.pos ∧ u.rbits = t.rbits

/-- 43_properties.md R102 (an inference of the spec): a safe program has exactly one sequence of responses and one final
state: whatever the free values, it draws none. -/
def Obligations.SafeProgramsDrawNothing : Prop :=
  ∀ (prog : List Instr) (s : State) (d : Nat), s.cursorTrue → safeProgram prog s = true →
    ∃ t rs, runCommands prog s = some (t, rs) ∧ t.draws = s.draws ∧
      runCommands prog { s with draws := d } = some ({ t with draws := d }, rs)

/-- 43_properties.md R102 (an inference of the spec): misuse does not leak past a re-initialisation: whatever two states
of one width hold, the same packer commands from WNEW on, in contract, give the same responses and the same
packer; likewise unpacker commands from RNEW on. -/
def Obligations.ReinitialisedUnitsForgetMisuse : Prop :=
  ∀ (s s' : State), s.width = s'.width →
    (∀ cmds : List Instr, (∀ i ∈ cmds, isPackerCommand i = true) → sequenceInContract (.wnew :: cmds) s = true →
      ∃ t t' rs, runCommands (.wnew :: cmds) s = some (t, rs) ∧ runCommands (.wnew :: cmds) s' = some (t', rs) ∧
        t.acc = t'.acc ∧ t.wbits = t'.wbits) ∧
    ∀ (x : Word) (cmds : List Instr), (∀ i ∈ cmds, isUnpackerCommand i = true) →
      sequenceInContract (.rnew x :: cmds) s = true →
      ∃ t t' rs, runCommands (.rnew x :: cmds) s = some (t, rs) ∧ runCommands (.rnew x :: cmds) s' = some (t', rs) ∧
        t.bitVec = t'.bitVec ∧ t.pos = t'.pos ∧ t.rbits = t'.rbits

/-- 43_properties.md R101, 60_exceptions.md R113: any number of blocks under one clock, of the same or different widths:
after any number of edges each is where it would be alone.
That a block in the list and the same block alone draw the same free values is the model's choice (log entries 6 and
13). -/
def Obligations.BlocksAreIndependent : Prop :=
  ∀ (n : Nat) (bs : List State), ∃ cs, clockBlocksN n bs = some cs ∧ cs.length = bs.length ∧
    ∀ (k : Nat) (s : State), bs[k]? = some s → ∃ t, stepN n s = some t ∧ cs[k]? = some t

/-- 20_memory.md R34, R43: every command gives exactly one response, in order, and executing a sequence is executing its
first part and then its second from the state the first left. -/
def Obligations.OneResponseForEachCommandInOrder : Prop :=
  ∀ (p q : List Instr) (s : State), ∃ t u rs vs,
    runCommands p s = some (t, rs) ∧ runCommands q t = some (u, vs) ∧
    runCommands (p ++ q) s = some (u, rs ++ vs) ∧ rs.length = p.length ∧ vs.length = q.length

/-- 20_memory.md R34: the clocked block refines the untimed one: on any inputs without reset, the responses seen on the
port are those of `exec` folded over the accepted commands, and so are the registers.
The inputs are the model's list (log entry 4), and that both runs draw the same free values is the model's choice
(log entry 6). -/
def Obligations.ClockedBlockRefinesTheFold : Prop :=
  ∀ s : State, (∀ e ∈ s.inputs, e.rst = false) →
    ∃ t u rs, observe s.inputs.length s = some (t, rs) ∧
      runCommands (acceptedCommands s.width s.inputs) s = some (u, rs) ∧
      t.width = u.width ∧ t.acc = u.acc ∧ t.bitVec = u.bitVec ∧ t.pos = u.pos ∧ t.wbits = u.wbits ∧
      t.rbits = u.rbits ∧ t.draws = u.draws ∧ t.inputs = []

/-! ### Assembly -/

/-- 30_encoding.md R56, R59: a line the disassembler prints assembles to the command it was printed from; only the
reserved opcode prints none. Its digits and blanks are the model's choice (log entry 14). -/
def Obligations.AssemblerReadsTheDisassembly : Prop :=
  ∀ (w : Width) (i : Instr), i.wellFormed w = true →
    (i ≠ .reserved7 → ∃ line, disassemble w i = some line ∧ assembleLine w line = .ok (some i)) ∧
    (i = .reserved7 → disassemble w i = none)

/-- 30_encoding.md R56: an operand outside its range is an assembly error, and what assembles is a well-formed command
other than the reserved one. -/
def Obligations.AssemblerKeepsOperandRanges : Prop :=
  ∀ (w : Width) (n m : Nat),
    (256 ≤ n → assembleCommand w (mnemonicText (.mask 0)) [n] = .error .outOfRange ∧
      assembleCommand w (mnemonicText (.read 0)) [n] = .error .outOfRange ∧
      assembleCommand w (mnemonicText (.write 0 0)) [n, m] = .error .outOfRange) ∧
    (2 ^ w.bits ≤ m → assembleCommand w (mnemonicText (.rnew 0)) [m] = .error .outOfRange ∧
      assembleCommand w (mnemonicText (.write 0 0)) [n, m] = .error .outOfRange) ∧
    ∀ (name : List Char) (ops : List Nat) (i : Instr), assembleCommand w name ops = .ok i →
      i.wellFormed w = true ∧ i ≠ .reserved7
end

