-- ==== Sys2Proof/Laws/Datapath.lean ====
section
/-!
SUPPORT. What each operation of the datapath computes, as a number (40_datapath.md R61 to R68), and that its results
fit W bits. Later proofs cite these instead of unfolding the operations.
-/

namespace Sys2Proof

theorem Width.bits_pos (w : Width) : 0 < w.bits := by cases w <;> decide

theorem Width.bits_le (w : Width) : w.bits ≤ 128 := by cases w <;> decide

theorem Width.bits_eq_two_pow (w : Width) : w.bits = 2 ^ w.logBits := by cases w <;> rfl

theorem Width.pow_le (w : Width) : 2 ^ w.bits ≤ 2 ^ 128 :=
  Nat.pow_le_pow_right (by decide) w.bits_le

/-- W < 2^W, so the number W fits in a word (R72). -/
theorem Width.bits_lt_pow (w : Width) : w.bits < 2 ^ w.bits := Nat.lt_two_pow_self

end Sys2Proof

namespace Sys2Proof.Machine

variable (w : Width)

theorem toNat_allOnes : (allOnes w).toNat = 2 ^ w.bits - 1 := by
  have := w.pow_le
  have : 0 < 2 ^ w.bits := Nat.two_pow_pos _
  rw [allOnes, BitVec.toNat_ofNat, Nat.mod_eq_of_lt (by omega)]

/-- AND with ALLONES keeps the low W bits. -/
theorem toNat_and_allOnes (x : Word) : (x &&& allOnes w).toNat = x.toNat % 2 ^ w.bits := by
  rw [BitVec.toNat_and, toNat_allOnes, Nat.and_two_pow_sub_one_eq_mod]

theorem fits_and_allOnes (x : Word) : Word.fits w (x &&& allOnes w) := by
  rw [Word.fits, toNat_and_allOnes]
  exact Nat.mod_lt _ (Nat.two_pow_pos _)

theorem and_allOnes_of_fits {x : Word} (h : Word.fits w x) : x &&& allOnes w = x :=
  BitVec.eq_of_toNat_eq (by rw [toNat_and_allOnes, Nat.mod_eq_of_lt h])

/-- SHL as a number (R62). -/
theorem toNat_shl (x : Word) (s : Nat) : (shl w x s).toNat = x.toNat * 2 ^ s % 2 ^ w.bits := by
  rw [shl, toNat_and_allOnes, BitVec.toNat_shiftLeft, Nat.shiftLeft_eq,
    Nat.mod_mod_of_dvd _ (Nat.pow_dvd_pow 2 w.bits_le)]

/-- SHR as a number (R63). -/
theorem toNat_shr (x : Word) (s : Nat) : (shr x s).toNat = x.toNat / 2 ^ s := by
  rw [shr, BitVec.toNat_ushiftRight, Nat.shiftRight_eq_div_pow]

/-- NMASK(n) = 2^n - 1 for n at most W (R64, R68). -/
theorem toNat_nmask {n : Nat} (h : n ≤ w.bits) : (nmask w n).toNat = 2 ^ n - 1 := by
  rw [nmask, toNat_shr, toNat_allOnes]
  have h2 : 2 ^ w.bits = 2 ^ n * 2 ^ (w.bits - n) := by rw [← Nat.pow_add]; congr 1; omega
  have hp : 0 < 2 ^ (w.bits - n) := Nat.two_pow_pos _
  have hn : 0 < 2 ^ n := Nat.two_pow_pos _
  rw [h2]
  obtain ⟨k, hk⟩ : ∃ k, 2 ^ n = k + 1 := ⟨2 ^ n - 1, by omega⟩
  rw [hk, Nat.div_eq_of_lt_le]
  · simp only [Nat.add_sub_cancel]
    rw [Nat.add_mul]
    omega
  · simp only [Nat.add_sub_cancel]
    have : 0 < (k + 1) * 2 ^ (w.bits - n) := Nat.mul_pos (by omega) hp
    omega

/-- x AND NMASK(n) is x mod 2^n (R65). -/
theorem toNat_and_nmask (x : Word) {n : Nat} (h : n ≤ w.bits) : (x &&& nmask w n).toNat = x.toNat % 2 ^ n := by
  rw [BitVec.toNat_and, toNat_nmask w h, Nat.and_two_pow_sub_one_eq_mod]

theorem toNat_widthWord : (widthWord w).toNat = w.bits := by cases w <;> rfl

theorem fits_anyWord (n : Nat) : Word.fits w (anyWord w n) := fits_and_allOnes w _

theorem fits_lostWord (n : Nat) : Word.fits w (lostWord w n) := fits_and_allOnes w _

theorem fits_idleWord (n : Nat) : Word.fits w (idleWord w n) := fits_and_allOnes w _

/-- READ's shift amount is defined exactly when it is not negative, and is then at most W (R66). -/
theorem readShift_eq_some {count pos k : Nat} :
    readShift w count pos = some k ↔ count + pos ≤ w.bits ∧ k = w.bits - count - pos := by
  unfold readShift
  split <;> simp_all [eq_comm]

end Sys2Proof.Machine
end

