-- ==== Sys2Proof/Laws/Decode.lean ====
section
/-!
SUPPORT. Small lemmas of the decoder and the encoder (30_encoding.md R47 to R54, R59).
-/

namespace Sys2Proof

/-- The fields of a well-formed command fit their places (R48, R51). -/
theorem canonicalFields_data_fits {w : Width} {i : Instr} (h : i.wellFormed w = true) :
    Word.fits w (canonicalFields i).data := by
  cases i <;> simp_all [Instr.wellFormed, canonicalFields, Word.fits]

/-- A decoded command is well formed when the data field fits W bits: the other fields cannot be too wide. -/
theorem decodeFields_wellFormed {w : Width} {c : CommandWord} (h : Word.fits w c.data) :
    (decodeFields c).wellFormed w = true := by
  unfold decodeFields
  split <;> simp_all [Instr.wellFormed]

/-- What the ports give the decoder fits W bits (R29, R51). -/
theorem portCommand_data_fits (w : Width) (c : CommandWord) : Word.fits w (Machine.portCommand w c).data :=
  Machine.fits_and_allOnes w c.data

/-- A command word as a number has L bits (R47). -/
theorem commandToNat_lt {w : Width} {c : CommandWord} (h : Word.fits w c.data) :
    commandToNat w c < 2 ^ w.commandBits := by
  have h1 : c.op.toNat < 8 := c.op.isLt
  have h2 : c.count.toNat < 256 := c.count.isLt
  have e1 : 2 ^ w.commandBits = 2048 * 2 ^ w.bits := by
    rw [Width.commandBits, Nat.pow_add]; omega
  have e2 : 2 ^ (w.bits + 8) = 256 * 2 ^ w.bits := by rw [Nat.pow_add]; omega
  have h3 : (c.op.toNat * 256 + c.count.toNat) * 2 ^ w.bits ≤ 2047 * 2 ^ w.bits :=
    Nat.mul_le_mul_right _ (by omega)
  have e3 : (c.op.toNat * 256 + c.count.toNat) * 2 ^ w.bits =
      c.op.toNat * (256 * 2 ^ w.bits) + c.count.toNat * 2 ^ w.bits := by ring
  rw [commandToNat, e1, e2]
  rw [Word.fits] at h
  omega

end Sys2Proof
end

