-- ==== Sys2Proof/Laws/PerInstr.lean ====
section
/-!
SUPPORT. Statements made per instruction. Family EncodeFits: the canonical encoding of a well-formed command has
L = W + 11 bits, and its top three bits are the command's opcode (30_encoding.md R47, R49, R59).
-/

namespace Sys2Proof.Laws.EncodeFits

/-- The opcode of a command (R49). -/
def opcode : Instr → Nat
  | .bitsize => 0
  | .mask _ => 1
  | .wnew => 2
  | .write _ _ => 3
  | .finish => 4
  | .rnew _ => 5
  | .read _ => 6
  | .reserved7 => 7

/-- The encoding of a well-formed command has L bits and its opcode in the top three (R47 to R49). -/
def Statement (i : Instr) : Prop :=
  ∀ w : Width, i.wellFormed w = true →
    encode w i < 2 ^ w.commandBits ∧ encode w i / 2 ^ (w.bits + 8) = opcode i

theorem of_fields (i : Instr) (h : (canonicalFields i).op.toNat = opcode i) : Statement i := by
  intro w hw
  have hf := canonicalFields_data_fits hw
  refine ⟨commandToNat_lt hf, ?_⟩
  have hc : (canonicalFields i).count.toNat < 256 := (canonicalFields i).count.isLt
  have e2 : 2 ^ (w.bits + 8) = 256 * 2 ^ w.bits := by rw [Nat.pow_add]; omega
  have hlow : (canonicalFields i).count.toNat * 2 ^ w.bits + (canonicalFields i).data.toNat < 2 ^ (w.bits + 8) := by
    have : (canonicalFields i).count.toNat * 2 ^ w.bits ≤ 255 * 2 ^ w.bits :=
      Nat.mul_le_mul_right _ (by omega)
    rw [Word.fits] at hf
    omega
  rw [encode, commandToNat, Nat.add_assoc, Nat.mul_comm, Nat.mul_add_div (Nat.two_pow_pos _),
    Nat.div_eq_of_lt hlow, h, Nat.add_zero]

theorem bitsize : Statement .bitsize := of_fields _ rfl
theorem mask (n : Count) : Statement (.mask n) := of_fields _ rfl
theorem wnew : Statement .wnew := of_fields _ rfl
theorem write (count : Count) (value : Word) : Statement (.write count value) := of_fields _ rfl
theorem finish : Statement .finish := of_fields _ rfl
theorem rnew (value : Word) : Statement (.rnew value) := of_fields _ rfl
theorem read (count : Count) : Statement (.read count) := of_fields _ rfl
theorem reserved7 : Statement .reserved7 := of_fields _ rfl

end Sys2Proof.Laws.EncodeFits
end

