-- ==== Sys2Proof/Laws/State.lean ====
section
/-!
SUPPORT. One lemma per field per named operation on State, each true by definition, so that no later proof unfolds
a record update.
-/

namespace Sys2Proof.Machine

variable (s : State)

@[simp] theorem respond_width (v : Word) : (respond v s).width = s.width := rfl
@[simp] theorem respond_acc (v : Word) : (respond v s).acc = s.acc := rfl
@[simp] theorem respond_bitVec (v : Word) : (respond v s).bitVec = s.bitVec := rfl
@[simp] theorem respond_pos (v : Word) : (respond v s).pos = s.pos := rfl
@[simp] theorem respond_wbits (v : Word) : (respond v s).wbits = s.wbits := rfl
@[simp] theorem respond_rbits (v : Word) : (respond v s).rbits = s.rbits := rfl
@[simp] theorem respond_rsp (v : Word) : (respond v s).rsp = some v := rfl
@[simp] theorem respond_inputs (v : Word) : (respond v s).inputs = s.inputs := rfl
@[simp] theorem respond_draws (v : Word) : (respond v s).draws = s.draws := rfl
@[simp] theorem respond_idles (v : Word) : (respond v s).idles = s.idles := rfl

@[simp] theorem setPacker_width (a : Word) (n : Nat) : (setPacker a n s).width = s.width := rfl
@[simp] theorem setPacker_acc (a : Word) (n : Nat) : (setPacker a n s).acc = a := rfl
@[simp] theorem setPacker_bitVec (a : Word) (n : Nat) : (setPacker a n s).bitVec = s.bitVec := rfl
@[simp] theorem setPacker_pos (a : Word) (n : Nat) : (setPacker a n s).pos = s.pos := rfl
@[simp] theorem setPacker_wbits (a : Word) (n : Nat) : (setPacker a n s).wbits = n := rfl
@[simp] theorem setPacker_rbits (a : Word) (n : Nat) : (setPacker a n s).rbits = s.rbits := rfl
@[simp] theorem setPacker_rsp (a : Word) (n : Nat) : (setPacker a n s).rsp = s.rsp := rfl
@[simp] theorem setPacker_inputs (a : Word) (n : Nat) : (setPacker a n s).inputs = s.inputs := rfl
@[simp] theorem setPacker_draws (a : Word) (n : Nat) : (setPacker a n s).draws = s.draws := rfl
@[simp] theorem setPacker_idles (a : Word) (n : Nat) : (setPacker a n s).idles = s.idles := rfl

@[simp] theorem setCursor_width (p : Count) (n : Nat) : (setCursor p n s).width = s.width := rfl
@[simp] theorem setCursor_acc (p : Count) (n : Nat) : (setCursor p n s).acc = s.acc := rfl
@[simp] theorem setCursor_bitVec (p : Count) (n : Nat) : (setCursor p n s).bitVec = s.bitVec := rfl
@[simp] theorem setCursor_pos (p : Count) (n : Nat) : (setCursor p n s).pos = p := rfl
@[simp] theorem setCursor_wbits (p : Count) (n : Nat) : (setCursor p n s).wbits = s.wbits := rfl
@[simp] theorem setCursor_rbits (p : Count) (n : Nat) : (setCursor p n s).rbits = n := rfl
@[simp] theorem setCursor_rsp (p : Count) (n : Nat) : (setCursor p n s).rsp = s.rsp := rfl
@[simp] theorem setCursor_inputs (p : Count) (n : Nat) : (setCursor p n s).inputs = s.inputs := rfl
@[simp] theorem setCursor_draws (p : Count) (n : Nat) : (setCursor p n s).draws = s.draws := rfl
@[simp] theorem setCursor_idles (p : Count) (n : Nat) : (setCursor p n s).idles = s.idles := rfl

@[simp] theorem setWord_width (v : Word) : (setWord v s).width = s.width := rfl
@[simp] theorem setWord_acc (v : Word) : (setWord v s).acc = s.acc := rfl
@[simp] theorem setWord_bitVec (v : Word) : (setWord v s).bitVec = v := rfl
@[simp] theorem setWord_pos (v : Word) : (setWord v s).pos = s.pos := rfl
@[simp] theorem setWord_wbits (v : Word) : (setWord v s).wbits = s.wbits := rfl
@[simp] theorem setWord_rbits (v : Word) : (setWord v s).rbits = s.rbits := rfl
@[simp] theorem setWord_rsp (v : Word) : (setWord v s).rsp = s.rsp := rfl
@[simp] theorem setWord_inputs (v : Word) : (setWord v s).inputs = s.inputs := rfl
@[simp] theorem setWord_draws (v : Word) : (setWord v s).draws = s.draws := rfl
@[simp] theorem setWord_idles (v : Word) : (setWord v s).idles = s.idles := rfl

@[simp] theorem drawn_width : (drawn s).width = s.width := rfl
@[simp] theorem drawn_acc : (drawn s).acc = s.acc := rfl
@[simp] theorem drawn_bitVec : (drawn s).bitVec = s.bitVec := rfl
@[simp] theorem drawn_pos : (drawn s).pos = s.pos := rfl
@[simp] theorem drawn_wbits : (drawn s).wbits = s.wbits := rfl
@[simp] theorem drawn_rbits : (drawn s).rbits = s.rbits := rfl
@[simp] theorem drawn_rsp : (drawn s).rsp = s.rsp := rfl
@[simp] theorem drawn_inputs : (drawn s).inputs = s.inputs := rfl
@[simp] theorem drawn_draws : (drawn s).draws = s.draws + 1 := rfl
@[simp] theorem drawn_idles : (drawn s).idles = s.idles := rfl

@[simp] theorem pastEdge_width : (pastEdge s).width = s.width := rfl
@[simp] theorem pastEdge_acc : (pastEdge s).acc = s.acc := rfl
@[simp] theorem pastEdge_bitVec : (pastEdge s).bitVec = s.bitVec := rfl
@[simp] theorem pastEdge_pos : (pastEdge s).pos = s.pos := rfl
@[simp] theorem pastEdge_wbits : (pastEdge s).wbits = s.wbits := rfl
@[simp] theorem pastEdge_rbits : (pastEdge s).rbits = s.rbits := rfl
@[simp] theorem pastEdge_rsp : (pastEdge s).rsp = s.rsp := rfl
@[simp] theorem pastEdge_inputs : (pastEdge s).inputs = s.inputs.tail := rfl
@[simp] theorem pastEdge_draws : (pastEdge s).draws = s.draws := rfl
@[simp] theorem pastEdge_idles : (pastEdge s).idles = s.idles := rfl

@[simp] theorem noResponse_width : (noResponse s).width = s.width := rfl
@[simp] theorem noResponse_acc : (noResponse s).acc = s.acc := rfl
@[simp] theorem noResponse_bitVec : (noResponse s).bitVec = s.bitVec := rfl
@[simp] theorem noResponse_pos : (noResponse s).pos = s.pos := rfl
@[simp] theorem noResponse_wbits : (noResponse s).wbits = s.wbits := rfl
@[simp] theorem noResponse_rbits : (noResponse s).rbits = s.rbits := rfl
@[simp] theorem noResponse_rsp : (noResponse s).rsp = none := rfl
@[simp] theorem noResponse_inputs : (noResponse s).inputs = s.inputs := rfl
@[simp] theorem noResponse_draws : (noResponse s).draws = s.draws := rfl
@[simp] theorem noResponse_idles : (noResponse s).idles = s.idles + 1 := rfl

@[simp] theorem presentCommand_width (c : CommandWord) : (presentCommand c s).width = s.width := rfl
@[simp] theorem presentCommand_acc (c : CommandWord) : (presentCommand c s).acc = s.acc := rfl
@[simp] theorem presentCommand_bitVec (c : CommandWord) : (presentCommand c s).bitVec = s.bitVec := rfl
@[simp] theorem presentCommand_pos (c : CommandWord) : (presentCommand c s).pos = s.pos := rfl
@[simp] theorem presentCommand_wbits (c : CommandWord) : (presentCommand c s).wbits = s.wbits := rfl
@[simp] theorem presentCommand_rbits (c : CommandWord) : (presentCommand c s).rbits = s.rbits := rfl
@[simp] theorem presentCommand_rsp (c : CommandWord) : (presentCommand c s).rsp = s.rsp := rfl
@[simp] theorem presentCommand_inputs (c : CommandWord) : (presentCommand c s).inputs = { rst := false, cmdValid := true, cmd := c } :: s.inputs.tail := rfl
@[simp] theorem presentCommand_draws (c : CommandWord) : (presentCommand c s).draws = s.draws := rfl
@[simp] theorem presentCommand_idles (c : CommandWord) : (presentCommand c s).idles = s.idles := rfl

/-- The reset edge, field by field (R28, R119). -/
theorem resetEdge_eq :
    resetEdge s = { State.resetAt s.width with inputs := s.inputs, draws := s.draws, idles := s.idles + 1 } := rfl

@[simp] theorem edgeInputs_nil (h : s.inputs = []) : edgeInputs s = idleInputs := by
  simp [edgeInputs, h]

@[simp] theorem edgeInputs_cons (e : PortInputs) (rest : List PortInputs) (h : s.inputs = e :: rest) :
    edgeInputs s = e := by
  simp [edgeInputs, h]

/-- A host that never resets does not reset at the next edge. -/
theorem edgeInputs_rst_false (h : ∀ e ∈ s.inputs, e.rst = false) : (edgeInputs s).rst = false := by
  cases hi : s.inputs with
  | nil => rw [edgeInputs_nil s hi]; rfl
  | cons e rest => rw [edgeInputs_cons s e rest hi]; exact h e (by simp [hi])

@[simp] theorem responseDropped_eq : responseDropped s = (edgeInputs s).rst := rfl

/-- A response is on the port exactly when the stage holds it and the coming edge is no reset edge (R33, R120). -/
theorem rspValid_iff : rspValid s = true ↔ (∃ v, s.rsp = some v) ∧ (edgeInputs s).rst = false := by
  simp [rspValid, responseDropped, Option.isSome_iff_exists]

@[simp] theorem rspValid_none (h : s.rsp = none) : rspValid s = false := by
  simp [rspValid, h]

/-- The port shows the response that the stage holds, unless the coming reset drops it (R33, R120). -/
theorem rspData_some {v : Word} (h : s.rsp = some v) :
    rspData s = if (edgeInputs s).rst then lostWord s.width s.idles else v := by
  rw [rspData, h, responseDropped]

@[simp] theorem rspData_none (h : s.rsp = none) : rspData s = idleWord s.width s.idles := by
  simp [rspData, h]

/-- A command is accepted exactly when `rst` = 0 and `cmd_valid` = 1 (R31, R32). -/
theorem accepts_iff (e : PortInputs) : accepts e = true ↔ e.rst = false ∧ e.cmdValid = true := by
  cases hr : e.rst <;> cases hv : e.cmdValid <;> simp [accepts, cmdReady, hr, hv]

end Sys2Proof.Machine
end

