-- ==== Sys2Proof/Laws/Step.lean ====
section
/-!
SUPPORT. What a step can do, said once: a reset edge, an accepted command, or an edge that changes no register
(20_memory.md R31, 70_reset_and_hazards.md R119).
-/

namespace Sys2Proof.Machine

theorem step_of_rst {s : State} (h : (edgeInputs s).rst = true) : step s = .next (resetEdge (pastEdge s)) := by
  simp [step, h]

theorem step_of_accepts {s : State} (h : accepts (edgeInputs s) = true) :
    step s = exec (decodeFields (portCommand s.width (edgeInputs s).cmd)) (pastEdge s) := by
  have hr := ((accepts_iff _).1 h).1
  simp [step, h, hr]

theorem step_of_idle {s : State} (hr : (edgeInputs s).rst = false) (ha : accepts (edgeInputs s) = false) :
    step s = .next (idleEdge (pastEdge s)) := by
  simp [step, hr, ha]

/-- Every next state of a step comes from one of the three kinds of edge. -/
theorem step_cases {s t : State} (h : step s = .next t) :
    ((edgeInputs s).rst = true ∧ t = resetEdge (pastEdge s)) ∨
    (accepts (edgeInputs s) = true ∧
      exec (decodeFields (portCommand s.width (edgeInputs s).cmd)) (pastEdge s) = .next t) ∨
    ((edgeInputs s).rst = false ∧ accepts (edgeInputs s) = false ∧ t = idleEdge (pastEdge s)) := by
  cases hr : (edgeInputs s).rst with
  | true =>
    rw [step_of_rst hr] at h
    cases h
    exact .inl ⟨rfl, rfl⟩
  | false =>
    cases ha : accepts (edgeInputs s) with
    | true => exact .inr (.inl ⟨rfl, by rw [← step_of_accepts ha]; exact h⟩)
    | false =>
      rw [step_of_idle hr ha] at h
      cases h
      exact .inr (.inr ⟨rfl, rfl, rfl⟩)

end Sys2Proof.Machine
end

