-- ==== Sys2Proof/Tests/Slice0.lean ====
section
/-!
SUPPORT. Tests. Expected values come from spec/95_test_vectors.md (the vector's name stands in the comment) or from the
encoding tables of spec/30_encoding.md; the witnesses show states and operands that meet a statement's hypotheses.
-/

namespace Sys2Proof.Tests

open Sys2Proof Sys2Proof.Machine

/-- The next state, if there is one. -/
def after (o : Host.Outcome State Fault Refusal) : Option State :=
  match o with
  | .next s => some s
  | .fault _ => none
  | .refused _ => none

/-- A block of width w whose packer holds a word of n bits. -/
def packerAt (w : Width) (acc : Word) (n : Nat) : State :=
  { State.resetAt w with acc := acc, wbits := n }

/-- A block of width w whose unpacker holds a word with p bits read. -/
def unpackerAt (w : Width) (x : Word) (p : Count) : State :=
  { State.resetAt w with bitVec := x, pos := p, rbits := p.toNat }

/-- The response after a command. -/
def responseOf (i : Instr) (s : State) : Option Word :=
  (after (exec i s)).bind (·.rsp)

/-! Well-formedness: an ill-formed term for each check. -/

theorem test_write_value_too_wide_is_ill_formed :
    (Instr.write 3 0x100).wellFormed .w8 = false ∧ (Instr.write 3 0xFF).wellFormed .w8 = true := by decide

theorem test_rnew_value_too_wide_is_ill_formed :
    (Instr.rnew 0x10000).wellFormed .w16 = false ∧ (Instr.rnew 0xFFFF).wellFormed .w16 = true := by decide

/-! Decoding: one word per command written out from R47 to R49 (E1 to E16), and junk in ignored fields (R52). -/

theorem test_decode_bitsize : decodeCommand .w8 0b0000000000000000000 = .ok .bitsize := by rfl
theorem test_decode_mask : decodeCommand .w32 0x10C00000000 = .ok (.mask 12) := by rfl
theorem test_decode_wnew : decodeCommand .w8 0b0100000000000000000 = .ok .wnew := by rfl
theorem test_decode_write : decodeCommand .w8 0b0110000001100000101 = .ok (.write 3 5) := by rfl
theorem test_decode_finish_ignores_fields : decodeCommand .w8 0x4ABCD = .ok .finish := by rfl
theorem test_decode_rnew : decodeCommand .w32 0x500DEADBEEF = .ok (.rnew 0xDEADBEEF) := by rfl
theorem test_decode_read : decodeCommand .w128 0x68000000000000000000000000000000000 = .ok (.read 128) := by rfl
theorem test_decode_reserved : decodeCommand .w8 0x7FFFF = .ok .reserved7 := by rfl
theorem test_encode_write : encode .w64 (.write 32 0xDEADBEEF) = 0x32000000000DEADBEEF := by decide
theorem test_encode_read : encode .w8 (.read 5) = 0x60500 := by decide

/-- The table's words: header bits, data field 0 (R48). -/
theorem test_decode_table_words :
    decodeTableWord 16 0x000 = some .bitsize ∧ decodeTableWord 16 0x105 = some (.mask 5) ∧
    decodeTableWord 16 0x200 = some .wnew ∧ decodeTableWord 16 0x3FF = some (.write 255 0) ∧
    decodeTableWord 16 0x400 = some .finish ∧ decodeTableWord 16 0x500 = some (.rnew 0) ∧
    decodeTableWord 16 0x680 = some (.read 128) ∧ decodeTableWord 16 0x700 = some .reserved7 := by decide

/-! Commands. -/

/-- B1, B5. -/
theorem test_bitsize :
    responseOf .bitsize (State.resetAt .w8) = some 0x08 ∧
    responseOf .bitsize (State.resetAt .w128) = some 0x80 := by decide

/-- M1, M5, M6: MASK 0 is 0, MASK W is ALLONES. -/
theorem test_mask :
    responseOf (.mask 0) (State.resetAt .w8) = some 0 ∧ responseOf (.mask 8) (State.resetAt .w8) = some 0xFF ∧
    responseOf (.mask 5) (State.resetAt .w16) = some 0x001F ∧
    responseOf (.mask 128) (State.resetAt .w128) = some (BitVec.allOnes 128) := by decide

/-- M8: out of contract, no register changes. -/
theorem test_mask_out_of_contract_keeps_registers :
    (after (exec (.mask 9) (packerAt .w8 0xB1 8))).map (fun t => (t.acc, t.wbits, t.pos)) = some (0xB1, 8, 0) := by decide

/-- W18. -/
theorem test_wnew_abandons : after (exec .wnew (packerAt .w8 0x2A 6)) = some { packerAt .w8 0 0 with rsp := some 0 } := by
  decide

/-- W2, W4, W21: append, mask the value, fill the word. -/
theorem test_write :
    after (exec (.write 5 0x11) (packerAt .w8 0x05 3)) = some { packerAt .w8 0xB1 8 with rsp := some 0 } ∧
    after (exec (.write 6 0x7F) (packerAt .w16 0x000A 4)) = some { packerAt .w16 0x02BF 10 with rsp := some 0 } ∧
    after (exec (.write 16 0xF00D) (packerAt .w64 0x0000CAFEDEADBEEF 48)) =
      some { packerAt .w64 0xCAFEDEADBEEFF00D 64 with rsp := some 0 } := by decide

/-- W9, W10: out of contract the ghost counter still counts, the response is 0 and the unpacker is untouched. -/
theorem test_write_out_of_contract :
    (after (exec (.write 1 1) (packerAt .w8 0xB1 8))).map (fun t => (t.wbits, t.rsp, t.bitVec, t.pos)) =
      some (9, some 0, 0, 0) ∧
    (after (exec (.write 9 0) (packerAt .w8 0 0))).map (fun t => (t.wbits, t.rsp)) = some (9, some 0) := by decide

/-- W15, W17. -/
theorem test_finish :
    after (exec .finish (packerAt .w8 0xB1 8)) = some { packerAt .w8 0 0 with rsp := some 0xB1 } ∧
    responseOf .finish (packerAt .w16 0x02BF 10) = some 0x02BF := by decide

/-- R16, R14. -/
theorem test_rnew :
    after (exec (.rnew 0x02BF) (unpackerAt .w16 0xFFFF 7)) = some { unpackerAt .w16 0x02BF 0 with rsp := some 0 } := by
  decide

/-- R1, R2, R4, R9: from the top down, right-justified; READ 0 at the start shifts by W. -/
theorem test_read :
    after (exec (.read 3) (unpackerAt .w8 0xB1 0)) = some { unpackerAt .w8 0xB1 3 with rsp := some 0x05 } ∧
    after (exec (.read 5) (unpackerAt .w8 0xB1 3)) = some { unpackerAt .w8 0xB1 8 with rsp := some 0x11 } ∧
    responseOf (.read 0) (unpackerAt .w8 0xB1 0) = some 0 ∧
    responseOf (.read 48) (unpackerAt .w64 0xCAFEDEADBEEFF00D 16) = some 0xDEADBEEFF00D := by decide

/-- R10, R12: out of contract the word stays and the ghost counter counts. -/
theorem test_read_out_of_contract :
    (after (exec (.read 1) (unpackerAt .w8 0xB1 8))).map (fun t => (t.bitVec, t.rbits, t.acc)) = some (0xB1, 9, 0) ∧
    (after (exec (.read 4) (unpackerAt .w8 0xB1 5))).map (fun t => (t.bitVec, t.rbits)) = some (0xB1, 9) := by decide

/-- P5, line 15: the hardware does nothing. -/
theorem test_reserved :
    after (exec .reserved7 (unpackerAt .w8 0xB1 8)) = some { unpackerAt .w8 0xB1 8 with rsp := some 0 } := by decide

/-- Primitive vectors of 95_test_vectors.md section 2.2. -/
theorem test_shifters :
    shl .w8 0xB1 1 = 0x62 ∧ shl .w8 0xB1 4 = 0x10 ∧ shl .w8 0xB1 8 = 0 ∧
    shr 0xB1 1 = 0x58 ∧ shr 0xB1 7 = 0x01 ∧ shr 0xB1 8 = 0 := by decide

/-- R100: the packed word of the source's scenario, by the closed form. -/
theorem test_scenario_word :
    packedValue [(11, 42), (24, 1337), (3, 2), (30, 0), (3, 1), (57, 12)] = 0x054000A728000000020000000000000C ∧
    fieldBits [(11, 42), (24, 1337), (3, 2), (30, 0), (3, 1), (57, 12)] = 128 := by decide

/-- R8: the slices of a word. -/
theorem test_slices : slices .w64 0xCAFEDEADBEEFF00D 0 [16, 32, 16] = [0xCAFE, 0xDEADBEEF, 0xF00D] := by decide

/-! Edges. -/

/-- The first step from reset runs the command the host presents; a reset edge wins over a command. -/
theorem test_step_runs_presented_command :
    (after (step (State.reset.withFetchWord 16 0x180))).map (·.rsp) = some (some (BitVec.allOnes 128)) := by decide

theorem test_reset_edge :
    (after (step { packerAt .w8 0xB1 8 with inputs := [{ rst := true, cmdValid := true, cmd := ⟨4, 0, 0⟩ }] })).map
      (fun t => (t.acc, t.wbits, t.rsp, t.width)) = some (0, 0, none, .w8) := by decide

theorem test_idle_edge :
    (after (step { packerAt .w8 0xB1 8 with rsp := some 1 })).map (fun t => (t.acc, t.wbits, t.rsp)) =
      some (0xB1, 8, none) := by decide

/-! Assembly (R56, R59). -/

theorem test_assemble_line :
    assembleLine .w8 ['W', 'R', 'I', 'T', 'E', ' ', ' ', '3', ',', ' ', '0', 'x', '5', ' ', ';', 'x'] =
      .ok (some (.write 3 5)) := by rfl

theorem test_assemble_program :
    assembleWords [['.', 'w', 'i', 'd', 't', 'h', ' ', '8'], [';'], ['R', 'E', 'A', 'D', ' ', '5']] =
      .ok (.w8, [0x60500]) := by rfl

theorem test_assemble_errors :
    assembleLine .w8 ['R', 'N', 'E', 'W', ' ', '2', '5', '6'] = .error .outOfRange ∧
    assembleLine .w8 ['N', 'O', 'P'] = .error .unknownMnemonic ∧
    assembleProgram [['.', 'w', 'i', 'd', 't', 'h', ' ', '9']] = .error .noWidth := ⟨rfl, rfl, rfl⟩

/-! Witnesses: states and operands that meet the hypotheses of a statement, at the boundaries of its clauses. -/

theorem witness_DecodeOfEncodeIsIdentity :
    (Instr.write 255 0xFF).wellFormed .w8 = true ∧ (Instr.rnew 0).wellFormed .w8 = true := by decide

theorem witness_EncodeOfDecodeClearsIgnoredFields :
    commandOfNat .w8 0x7FFFF = .ok ⟨7, 0xFF, 0xFF⟩ ∧ commandOfNat .w8 0x305FF = .ok ⟨3, 5, 0xFF⟩ := ⟨rfl, rfl⟩

theorem witness_EveryPatternDecodesByItsTopBits :
    0x7FFFF < 2 ^ Width.w8.commandBits ∧ 0 < 2 ^ Width.w8.commandBits := by decide

theorem witness_OverlongWordIsRejected : 2 ^ Width.w8.commandBits ≤ 0x80000 := by decide

theorem witness_CommandWordFieldsByPosition : Word.fits .w8 (CommandWord.mk 3 255 0xFF).data := by decide

theorem witness_MaskAnswersTheLowOnes :
    (0 : Count).toNat ≤ (State.resetAt .w8).width.bits ∧ (8 : Count).toNat ≤ (State.resetAt .w8).width.bits := by decide

theorem witness_MaskOutOfContractDrawsItsResponse :
    (State.resetAt .w8).width.bits < (9 : Count).toNat ∧ (State.resetAt .w128).width.bits < (255 : Count).toNat := by decide

theorem witness_WnewClearsThePacker : ∃ t, exec .wnew (packerAt .w8 0xB1 9) = .next t := ⟨_, rfl⟩

theorem witness_WriteAppendsAField :
    (packerAt .w8 0x05 3).wbits + (5 : Count).toNat ≤ (packerAt .w8 0x05 3).width.bits ∧
    (packerAt .w8 0x05 3).acc.toNat < 2 ^ (packerAt .w8 0x05 3).wbits := by decide

theorem witness_WritePastTheWordDrawsTheAccumulator :
    (packerAt .w8 0xB1 8).width.bits < (packerAt .w8 0xB1 8).wbits + (1 : Count).toNat ∧
    (∀ i ∈ [Instr.write 0 0, .mask 3], i ≠ .wnew ∧ i ≠ .finish) ∧
    ∃ u rs, runCommands [.write 1 1, .write 0 0, .mask 3] (packerAt .w8 0xB1 8) = some (u, rs) :=
  ⟨by decide, by decide, _, _, rfl⟩

theorem witness_RnewLoadsTheUnpacker : ∃ t, exec (.rnew 1) (unpackerAt .w8 0xB1 9) = .next t := ⟨_, rfl⟩

theorem witness_ReadExtractsTheNextField :
    (unpackerAt .w8 0xB1 3).rbits + (5 : Count).toNat ≤ (unpackerAt .w8 0xB1 3).width.bits ∧
    (unpackerAt .w8 0xB1 3).pos.toNat = (unpackerAt .w8 0xB1 3).rbits := by decide

theorem witness_ReadPastTheWordDrawsResponseAndCursor :
    (unpackerAt .w8 0xB1 8).width.bits < (unpackerAt .w8 0xB1 8).rbits + (1 : Count).toNat ∧
    (∀ i ∈ [Instr.read 0, .bitsize], ∀ v, i ≠ .rnew v) ∧
    ∃ u rs, runCommands [.read 1, .read 0, .bitsize] (unpackerAt .w8 0xB1 8) = some (u, rs) :=
  ⟨by decide, by simp, _, _, rfl⟩

theorem witness_SilentCommandsAnswerZero :
    (∃ t, exec .wnew State.reset = .next t ∧ (edgeInputs t).rst = false) ∧ (∃ t, exec .reserved7 State.reset = .next t) ∧
    (∃ t, exec (.write 9 1) (State.resetAt .w8) = .next t) ∧ ∃ t, exec (.rnew 1) State.reset = .next t :=
  ⟨⟨_, rfl, rfl⟩, ⟨_, rfl⟩, ⟨_, rfl⟩, ⟨_, rfl⟩⟩

theorem witness_WriteCornerCases :
    (packerAt .w8 0xB1 8).wbits ≤ 8 ∧ Word.fits .w8 (packerAt .w8 0xB1 8).acc ∧ (packerAt .w8 0 0).packerClear ∧
    (8 : Count).toNat = (packerAt .w8 0 0).width.bits ∧ Word.fits .w8 0xC3 ∧
    (packerAt .w8 0x05 3).wbits + (5 : Count).toNat ≤ 8 ∧ (packerAt .w8 0x05 3).packerClean :=
  ⟨by decide, by decide, ⟨rfl, rfl⟩, by decide, by decide, by decide, fun _ => by decide⟩

theorem witness_ReadCornerCases :
    (unpackerAt .w8 0xB1 8).rbits ≤ 8 ∧ (unpackerAt .w8 0xB1 8).pos.toNat = (unpackerAt .w8 0xB1 8).rbits ∧
    (unpackerAt .w8 0xB1 0).rbits + (8 : Count).toNat ≤ (unpackerAt .w8 0xB1 0).width.bits ∧
    (unpackerAt .w8 0xB1 7).rbits + (1 : Count).toNat ≤ (unpackerAt .w8 0xB1 7).width.bits ∧
    Word.fits .w8 (unpackerAt .w8 0xB1 0).bitVec ∧ Word.fits .w8 (unpackerAt .w8 0 7).bitVec ∧
    (∃ t, exec (.read 8) (unpackerAt .w8 0xB1 0) = .next t) ∧ ∃ t, exec (.read 1) (unpackerAt .w8 0 7) = .next t :=
  ⟨by decide, by decide, by decide, by decide, by decide, by decide, ⟨_, rfl⟩, ⟨_, rfl⟩⟩

theorem witness_FinishCornerCases :
    (packerAt .w16 0x02BF 10).packerClean ∧ (packerAt .w16 0x02BF 10).wbits ≤ 16 ∧
    (packerAt .w16 0 0).packerClean ∧ (packerAt .w16 0 0).wbits = 0 :=
  ⟨fun _ => by decide, by decide, fun _ => by decide, rfl⟩

/-- A block with a reset edge ahead of it. -/
def resetAhead : State :=
  { packerAt .w8 0xB1 8 with inputs := [{ rst := true, cmdValid := true, cmd := ⟨4, 0, 0⟩ }] }

/-- A block with a command, then no command, ahead of it. -/
def commandAhead : State :=
  { packerAt .w8 0xB1 8 with
    inputs := [{ rst := false, cmdValid := true, cmd := ⟨4, 0xAB, 0xCD⟩ }, idleInputs] }

/-- A block with a command, then a reset edge, ahead of it. -/
def commandThenReset : State :=
  { packerAt .w8 0xB1 8 with
    inputs := [{ rst := false, cmdValid := true, cmd := ⟨4, 0, 0⟩ }, { rst := true, cmdValid := false, cmd := ⟨0, 0, 0⟩ }] }

/-- R120: a reset in the cycle after a command drops its response. R33: without one it is seen. -/
theorem test_reset_drops_the_response_before_it :
    (observe 2 commandThenReset).map Prod.snd = some [] ∧ (observe 2 commandAhead).map Prod.snd = some [0xB1] := by
  decide

theorem witness_FinishLeavesAFreshPacker :
    (∃ t, exec .finish resetAhead = .next t) ∧ (∃ t, exec .wnew resetAhead = .next t) ∧
    (edgeInputs resetAhead).rst = true ∧ (∃ t, step resetAhead = .next t) ∧ (8 : Count).toNat ≤ resetAhead.width.bits :=
  ⟨⟨_, rfl⟩, ⟨_, rfl⟩, rfl, ⟨_, rfl⟩, by decide⟩

theorem witness_ShiftersByValueAndByBit : Word.fits .w8 0xB1 ∧ 8 ≤ Width.w8.bits ∧ 0 ≤ Width.w8.bits := by decide

theorem witness_MaskGeneratorSetsTheLowBits : 0 ≤ Width.w128.bits ∧ 128 ≤ Width.w128.bits := by decide

theorem witness_MergedFieldMeetsVacatedBits : 0 ≤ Width.w16.bits ∧ 16 ≤ Width.w16.bits := by decide

theorem witness_PackerCommandsLeaveTheRest :
    (∃ t, exec .wnew (unpackerAt .w8 0xB1 3) = .next t) ∧ (∃ t, exec .finish (unpackerAt .w8 0xB1 3) = .next t) ∧
    (∃ t, exec (.write 8 1) (unpackerAt .w8 0xB1 3) = .next t) ∧
    inContract (.write 8 1) (unpackerAt .w8 0xB1 3) = true :=
  ⟨⟨_, rfl⟩, ⟨_, rfl⟩, ⟨_, rfl⟩, by decide⟩

theorem witness_UnpackerCommandsLeaveTheRest :
    (∃ t, exec (.rnew 1) (unpackerAt .w8 0xB1 3) = .next t) ∧ (∃ t, exec (.read 5) (unpackerAt .w8 0xB1 3) = .next t) ∧
    inContract (.read 5) (unpackerAt .w8 0xB1 3) = true ∧ (unpackerAt .w8 0xB1 3).cursorTrue :=
  ⟨⟨_, rfl⟩, ⟨_, rfl⟩, by decide, fun _ => by decide⟩

theorem witness_StatelessCommandsLeaveEveryRegister :
    (∃ t, exec .bitsize (packerAt .w8 5 3) = .next t) ∧ (∃ t, exec .reserved7 (packerAt .w8 5 3) = .next t) ∧
    (∃ t, exec (.mask 8) (packerAt .w8 5 3) = .next t) ∧ inContract (.mask 8) (packerAt .w8 5 3) = true :=
  ⟨⟨_, rfl⟩, ⟨_, rfl⟩, ⟨_, rfl⟩, by decide⟩

theorem witness_RegistersHaveFewWriters :
    (∃ t, step commandAhead = .next t ∧ t.acc ≠ commandAhead.acc) ∧
    ∃ t, step { unpackerAt .w8 0xB1 3 with inputs := [{ rst := true, cmdValid := false, cmd := ⟨0, 0, 0⟩ }] } = .next t ∧
      t.bitVec ≠ 0xB1 ∧ t.pos ≠ 3 :=
  ⟨⟨_, rfl, by decide⟩, ⟨_, rfl, by decide, by decide⟩⟩

theorem witness_StepRunsTheDecodedCommand :
    commandOfNat .w8 0x4ABCD = .ok ⟨4, 0xAB, 0xCD⟩ ∧ decodeCommand .w8 0x4ABCD = .ok .finish ∧
    commandAhead.inputs = { rst := false, cmdValid := true, cmd := ⟨4, 0xAB, 0xCD⟩ } :: [idleInputs] ∧
    commandAhead.width = .w8 := ⟨rfl, rfl, rfl, rfl⟩

theorem witness_EdgeAcceptsResetsOrHolds :
    (∃ e rest, commandAhead.inputs = e :: rest ∧ e.rst = false ∧ e.cmdValid = true) ∧
    (∃ e rest, [idleInputs] = e :: rest ∧ e.rst = false ∧ e.cmdValid = false) ∧
    ∃ e rest, resetAhead.inputs = e :: rest ∧ e.rst = true :=
  ⟨⟨_, _, rfl, rfl, rfl⟩, ⟨_, _, rfl, rfl, rfl⟩, ⟨_, _, rfl, rfl⟩⟩

theorem witness_ResetWinsOverEverything : (edgeInputs resetAhead).rst = true := rfl

theorem witness_SilenceChangesNothing : (packerAt .w8 0xB1 8).inputs = [] ∧ 0 < 1 := by decide

theorem witness_ResponseStandsOneCycle :
    (∃ t, step commandAhead = .next t ∧ (edgeInputs t).rst = false) ∧ accepts (edgeInputs commandAhead) = true ∧
    (∃ t, step commandThenReset = .next t ∧ (edgeInputs t).rst = true) ∧
    accepts (edgeInputs commandThenReset) = true ∧
    (∃ t, step resetAhead = .next t) ∧ accepts (edgeInputs resetAhead) = false :=
  ⟨⟨_, rfl, rfl⟩, rfl, ⟨_, rfl, rfl⟩, rfl, ⟨_, rfl⟩, rfl⟩

theorem witness_ResetStateValues : ∃ t, exec (.rnew 0) (unpackerAt .w8 0xB1 9) = .next t := ⟨_, rfl⟩

/-- A state in contract of width 8 whose invariant has something to say, with a command ahead. -/
theorem witness_EveryStepKeepsTheInvariant : commandAhead.inv ∧ ∃ t, step commandAhead = .next t :=
  ⟨⟨⟨by decide, by decide, fun v h => by cases h⟩, fun _ => by decide, fun _ => by decide⟩, _, rfl⟩

theorem witness_ContractKeepsCountersInTheWord :
    (packerAt .w8 0xB1 8).wbits ≤ 8 ∧ (packerAt .w8 0xB1 8).rbits ≤ 8 ∧
    sequenceInContract [.write 0 1, .read 8, .read 0, .mask 8] (packerAt .w8 0xB1 8) = true := by decide

theorem witness_WidthIsFixed :
    (∃ t, step commandAhead = .next t) ∧ widthOfNat 128 = some .w128 ∧ widthOfNat 9 = none := ⟨⟨_, rfl⟩, rfl, rfl⟩

theorem witness_GhostCountersFollowTheCommands :
    (∃ t, exec (.write 0 0) (packerAt .w8 1 9) = .next t) ∧
    (packerAt .w8 1 9).width.bits < (packerAt .w8 1 9).wbits ∧
    (∃ t, exec (.read 0) (unpackerAt .w8 1 9) = .next t) ∧
    (unpackerAt .w8 1 9).width.bits < (unpackerAt .w8 1 9).rbits ∧
    (edgeInputs resetAhead).rst = true ∧ ∃ t, step resetAhead = .next t :=
  ⟨⟨_, rfl⟩, by decide, ⟨_, rfl⟩, by decide, rfl, _, rfl⟩

theorem witness_PackedWordClosedForm :
    (packerAt .w8 0 0).packerClear ∧ fieldBits [(3, 5), (5, 0x11)] ≤ Width.w8.bits := ⟨⟨rfl, rfl⟩, by decide⟩

theorem witness_EachFieldHasItsPlace :
    (packerAt .w8 0 0).packerClear ∧ fieldBits ([(3, 5)] ++ (4, 0xF1) :: [(1, 1)]) ≤ Width.w8.bits ∧
    ∃ t rs, runCommands (writeAll ([(3, 5)] ++ (4, 0xF1) :: [(1, 1)])) (packerAt .w8 0 0) = some (t, rs) :=
  ⟨⟨rfl, rfl⟩, by decide, _, _, rfl⟩

theorem witness_FieldsReadInOrder : totalBits [3, 0, 5] ≤ (unpackerAt .w8 0xB1 9).width.bits := by decide

theorem witness_RoundTripOfAFullWord : fieldBits [(3, 5), (5, 0xF1)] = (State.resetAt .w8).width.bits := by decide

theorem witness_RoundTripOfAPartlyFilledWord :
    fieldBits [(4, 0xA)] < (State.resetAt .w8).width.bits ∧ fieldBits [] < (State.resetAt .w128).width.bits ∧
    (State.resetAt .w8).width = .w8 := by decide

theorem witness_ResponsesReassembleTheWord :
    Word.fits .w8 0xB1 ∧ totalBits [3, 4] ≤ Width.w8.bits ∧ totalBits [3, 5] = Width.w8.bits := by decide

theorem witness_InverseRoundTrip : Word.fits .w32 0xDEADBEEF ∧ totalBits [4, 4, 8, 16] = Width.w32.bits := by decide

theorem witness_FieldsSplitAndMerge :
    (packerAt .w8 0 0).wbits + (3 : Count).toNat + (5 : Count).toNat ≤ 8 ∧
    (unpackerAt .w8 0xB1 0).rbits + (3 : Count).toNat + (5 : Count).toNat ≤ 8 ∧
    (unpackerAt .w8 0xB1 0).pos.toNat = (unpackerAt .w8 0xB1 0).rbits ∧
    (unpackerAt .w8 0xB1 8).inv ∧ (unpackerAt .w8 0xB1 8).wbits ≤ 8 ∧ (unpackerAt .w8 0xB1 8).rbits ≤ 8 :=
  ⟨by decide, by decide, by decide,
    ⟨⟨by decide, by decide, fun v h => by cases h⟩, fun _ => by decide, fun _ => by decide⟩, by decide, by decide⟩

theorem witness_MaskingLaw :
    (packerAt .w16 0 0).wbits + (4 : Count).toNat ≤ 16 ∧
    (0xFA : Word).toNat % 2 ^ (4 : Count).toNat = (0x0A : Word).toNat % 2 ^ (4 : Count).toNat := by decide

theorem witness_UnitsSeeOnlyTheirOwnState :
    (∃ t, exec (.write 9 1) (packerAt .w8 5 3) = .next t) ∧
    (∃ t, exec (.write 9 1) { unpackerAt .w8 0xB1 3 with acc := 5, wbits := 3 } = .next t) ∧
    (∃ t, exec (.read 9) (unpackerAt .w8 5 3) = .next t) ∧
    (∃ t, exec (.read 9) { unpackerAt .w8 5 3 with acc := 7 } = .next t) ∧
    isPackerCommand (.write 9 1) = true ∧ isUnpackerCommand (.read 9) = true ∧
    isPackerCommand (.mask 9) = false ∧ isUnpackerCommand (.mask 9) = false :=
  ⟨⟨_, rfl⟩, ⟨_, rfl⟩, ⟨_, rfl⟩, ⟨_, rfl⟩, rfl, rfl, rfl, rfl⟩

theorem witness_InterleavingChangesNoResponse :
    (State.resetAt .w8).cursorTrue ∧
    sequenceInContract [.rnew 0xB1, .write 3 5, .read 3, .mask 2, .write 5 1, .read 5, .finish] (State.resetAt .w8) = true :=
  ⟨fun _ => rfl, by decide⟩

theorem witness_SafeProgramsDrawNothing :
    (State.resetAt .w8).cursorTrue ∧
    safeProgram [.rnew 0xB1, .write 8 5, .read 8, .mask 8, .finish] (State.resetAt .w8) = true ∧
    safeProgram [.reserved7] (State.resetAt .w8) = false :=
  ⟨fun _ => rfl, by decide, by decide⟩

theorem witness_ReinitialisedUnitsForgetMisuse :
    (packerAt .w8 0xB1 9).width = (unpackerAt .w8 0xB1 9).width ∧
    (∀ i ∈ [Instr.write 8 1, .finish], isPackerCommand i = true) ∧
    sequenceInContract [.wnew, .write 8 1, .finish] (packerAt .w8 0xB1 9) = true ∧
    (∀ i ∈ [Instr.read 8], isUnpackerCommand i = true) ∧
    sequenceInContract [.rnew 3, .read 8] (packerAt .w8 0xB1 9) = true := by decide

theorem witness_BlocksAreIndependent :
    [commandAhead, State.reset][1]? = some State.reset ∧ [commandAhead, State.reset][0]? = some commandAhead := ⟨rfl, rfl⟩

theorem witness_ClockedBlockRefinesTheFold : ∀ e ∈ commandAhead.inputs, e.rst = false := by decide

theorem witness_AssemblerReadsTheDisassembly :
    (Instr.write 255 0xFF).wellFormed .w8 = true ∧ Instr.write 255 0xFF ≠ .reserved7 ∧
    Instr.reserved7.wellFormed .w8 = true := by decide

theorem witness_AssemblerKeepsOperandRanges :
    256 ≤ 256 ∧ 2 ^ Width.w8.bits ≤ 256 ∧ assembleCommand .w8 (mnemonicText (.read 0)) [255] = .ok (.read 255) :=
  ⟨by decide, by decide, rfl⟩

end Sys2Proof.Tests
end

section
/-!
PROOFS. What MASK, WRITE and READ can do, said once each, guards included (40_datapath.md R73, R74, 41_writer.md R79,
R80, 42_reader.md R88, R89): the three commands whose meaning branches. From these, that no step changes the width.
-/

namespace Sys2Proof.Machine

variable {s t : State}

theorem execMask_cases {n : Count} (h : execMask n s = .next t) :
    (maskInContract n s = true ∧ t = respond (nmask s.width n.toNat) s) ∨
    (maskInContract n s = false ∧ t = respond (anyWord s.width s.draws) (drawn s)) := by
  cases hc : maskInContract n s with
  | true => exact .inl ⟨rfl, by simpa [execMask, hc] using h.symm⟩
  | false => exact .inr ⟨rfl, by simpa [execMask, hc] using h.symm⟩

theorem execWrite_cases {count : Count} {value : Word} (h : execWrite count value s = .next t) :
    (writeInContract count s = true ∧
      t = respond 0 (setPacker (shl s.width s.acc count.toNat ||| (value &&& nmask s.width count.toNat))
        (s.wbits + count.toNat) s)) ∨
    (writeInContract count s = false ∧
      t = respond 0 (setPacker (anyWord s.width s.draws) (s.wbits + count.toNat) (drawn s))) := by
  cases hc : writeInContract count s with
  | true => exact .inl ⟨rfl, by simpa [execWrite, hc] using h.symm⟩
  | false => exact .inr ⟨rfl, by simpa [execWrite, hc] using h.symm⟩

theorem execRead_cases {count : Count} (h : execRead count s = .next t) :
    (readInContract count s = true ∧ ∃ shift, readShift s.width count.toNat s.pos.toNat = some shift ∧
      t = respond (shr s.bitVec shift &&& nmask s.width count.toNat)
        (setCursor (s.pos + count) (s.rbits + count.toNat) s)) ∨
    ((readInContract count s = false ∨ readShift s.width count.toNat s.pos.toNat = none) ∧
      t = readUnspecified count s) := by
  cases hc : readInContract count s with
  | true =>
    cases hk : readShift s.width count.toNat s.pos.toNat with
    | some shift => exact .inl ⟨rfl, shift, rfl, by simpa [execRead, hc, hk] using h.symm⟩
    | none => exact .inr ⟨.inr rfl, by simpa [execRead, hc, hk] using h.symm⟩
  | false => exact .inr ⟨.inl rfl, by simpa [execRead, hc] using h.symm⟩

@[simp] theorem readUnspecified_width (count : Count) (s : State) :
    (readUnspecified count s).width = s.width := rfl

/-- The width is a build parameter: no command assigns it, in contract or out (R5). -/
theorem exec_width {i : Instr} (h : exec i s = .next t) : t.width = s.width := by
  cases i with
  | mask n => obtain ⟨-, rfl⟩ | ⟨-, rfl⟩ := execMask_cases h <;> simp
  | write count value => obtain ⟨-, rfl⟩ | ⟨-, rfl⟩ := execWrite_cases h <;> simp
  | read count => obtain ⟨-, _, -, rfl⟩ | ⟨-, rfl⟩ := execRead_cases h <;> simp
  | bitsize | wnew | finish | rnew value | reserved7 => cases h; rfl

/-- None of the three kinds of edge changes the width (R5): a reset leaves the build parameter alone too. -/
theorem step_width (h : step s = .next t) : t.width = s.width := by
  obtain ⟨-, rfl⟩ | ⟨-, hx⟩ | ⟨-, -, rfl⟩ := step_cases h
  · simp [resetEdge]
  · simpa using exec_width hx
  · simp [idleEdge]

theorem bits_mem_widths (w : Width) :
    w.bits = 8 ∨ w.bits = 16 ∨ w.bits = 32 ∨ w.bits = 64 ∨ w.bits = 128 := by
  cases w <;> decide

theorem widthOfNat_bits (w : Width) : widthOfNat w.bits = some w := by
  cases w <;> rfl

theorem bits_of_widthOfNat {n : Nat} {w : Width} (h : widthOfNat n = some w) : w.bits = n := by
  unfold widthOfNat at h
  split at h <;> cases h <;> rfl

theorem widthOfNat_eq_some {n : Nat} {w : Width} : widthOfNat n = some w ↔ w.bits = n :=
  ⟨bits_of_widthOfNat, fun h => h ▸ widthOfNat_bits w⟩

/-- Settles O41: the widths one by one, the kinds of edge one by one (`step_width`), and `widthOfNat` as the inverse
of `Width.bits`. -/
theorem widthIsFixed : Obligations.WidthIsFixed :=
  ⟨bits_mem_widths, fun _ _ => step_width, fun _ _ => widthOfNat_eq_some⟩

end Sys2Proof.Machine
end

section
/-!
PROOFS. The reset state field by field, and what RNEW does, said once (10_state.md R28, 42_reader.md R87). From these,
that `RNEW 0` brings the unpacker of any state to the reset values.
-/

namespace Sys2Proof.Machine

variable (w : Width)

@[simp] theorem State.resetAt_width : (State.resetAt w).width = w := rfl
@[simp] theorem State.resetAt_acc : (State.resetAt w).acc = 0 := rfl
@[simp] theorem State.resetAt_bitVec : (State.resetAt w).bitVec = 0 := rfl
@[simp] theorem State.resetAt_pos : (State.resetAt w).pos = 0 := rfl
@[simp] theorem State.resetAt_wbits : (State.resetAt w).wbits = 0 := rfl
@[simp] theorem State.resetAt_rbits : (State.resetAt w).rbits = 0 := rfl

/-- RNEW has no precondition and one outcome (R87). -/
theorem exec_rnew_eq_next {value : Word} {s t : State} :
    exec (.rnew value) s = .next t ↔ t = respond 0 (setWord value (setCursor 0 0 s)) := by
  simp [exec, execRnew, eq_comm]

/-- After `RNEW 0` the unpacker is the one of the reset state, whatever it was before, a misused one included (R28). -/
theorem unpacker_of_exec_rnew_zero {s t : State} (h : exec (.rnew 0) s = .next t) :
    t.bitVec = (State.resetAt w).bitVec ∧ t.pos = (State.resetAt w).pos ∧ t.rbits = (State.resetAt w).rbits := by
  obtain rfl := exec_rnew_eq_next.mp h
  simp

/-- Settles O37: the reset values are the fields of `State.resetAt`, and the comparison is
`unpacker_of_exec_rnew_zero`. -/
theorem resetStateValues : Obligations.ResetStateValues := fun w =>
  ⟨State.resetAt_width w, State.resetAt_acc w, State.resetAt_bitVec w, State.resetAt_pos w, State.resetAt_wbits w,
    State.resetAt_rbits w, fun _ _ => unpacker_of_exec_rnew_zero w⟩

end Sys2Proof.Machine
end

section
/-!
PROOFS. Every command completes with a response, in contract or out, and a presented command is accepted whatever the
state (20_memory.md R31, R32, R35). From these, that the block never stalls.
-/

namespace Sys2Proof.Machine

theorem execMask_eq_respond (n : Count) (s : State) : ∃ v u, execMask n s = .next (respond v u) := by
  unfold execMask
  split
  · exact ⟨_, _, rfl⟩
  · exact ⟨_, _, rfl⟩

theorem execWrite_eq_respond (count : Count) (value : Word) (s : State) :
    ∃ v u, execWrite count value s = .next (respond v u) := by
  unfold execWrite
  split
  · exact ⟨_, _, rfl⟩
  · exact ⟨_, _, rfl⟩

theorem execRead_eq_respond (count : Count) (s : State) : ∃ v u, execRead count s = .next (respond v u) := by
  unfold execRead
  split
  · split
    · exact ⟨_, _, rfl⟩
    · exact ⟨_, _, rfl⟩
  · exact ⟨_, _, rfl⟩

/-- No command has an outcome without a next state, and the last thing each does is to fill the response stage. -/
theorem exec_eq_respond (i : Instr) (s : State) : ∃ v u, exec i s = .next (respond v u) := by
  cases i with
  | mask n => exact execMask_eq_respond n s
  | write count value => exact execWrite_eq_respond count value s
  | read count => exact execRead_eq_respond count s
  | bitsize | wnew | finish | rnew value | reserved7 => exact ⟨_, _, rfl⟩

/-- Every command answers a next state that holds a response (R35). -/
theorem exec_responds (i : Instr) (s : State) : ∃ t v, exec i s = .next t ∧ t.rsp = some v := by
  obtain ⟨v, u, hx⟩ := exec_eq_respond i s
  exact ⟨respond v u, v, hx, respond_rsp u v⟩

@[simp] theorem edgeInputs_presentCommand (c : CommandWord) (s : State) :
    edgeInputs (presentCommand c s) = { rst := false, cmdValid := true, cmd := c } := rfl

/-- Acceptance asks only for `cmd_valid` without `rst`: nothing of the state can delay a presented command (R32). -/
theorem accepts_presentCommand (c : CommandWord) (s : State) : accepts (edgeInputs (presentCommand c s)) = true := by
  simp [accepts_iff]

/-- An edge that accepts a command answers a next state that holds that command's response (R31, R35). -/
theorem step_responds_of_accepts {s : State} (h : accepts (edgeInputs s) = true) :
    ∃ t v, step s = .next t ∧ t.rsp = some v := by
  rw [step_of_accepts h]
  exact exec_responds _ _

/-- Settles O35: a presented command is accepted (`accepts_presentCommand`), and an edge that accepts one answers a
state with a response (`step_responds_of_accepts`). -/
theorem blockIsAlwaysReady : Obligations.BlockIsAlwaysReady := by
  refine ⟨fun _ => rfl, fun s c => ?_⟩
  have ha := accepts_presentCommand c s
  obtain ⟨t, v, ht, hv⟩ := step_responds_of_accepts ha
  exact ⟨t, v, ht, ha, hv⟩

end Sys2Proof.Machine
end

section
/-!
PROOFS. The fields of a command word by position, and the row its opcode selects (30_encoding.md R47 to R49, R54). From
these, that every L-bit pattern decodes by its top three bits, and that a command word can be taken apart and read back.
-/

namespace Sys2Proof

variable {w : Width} {cmd : Nat} {c : CommandWord}

/-- The decoder's one check is the length (R54). -/
theorem commandOfNat_of_lt (h : cmd < 2 ^ w.commandBits) :
    commandOfNat w cmd = .ok
      { op := BitVec.ofNat 3 (cmd / 2 ^ (w.bits + 8))
        count := BitVec.ofNat 8 (cmd / 2 ^ w.bits)
        data := BitVec.ofNat 128 (cmd % 2 ^ w.bits) } :=
  if_pos h

theorem decodeCommand_of_commandOfNat (h : commandOfNat w cmd = .ok c) :
    decodeCommand w cmd = .ok (decodeFields c) := by
  rw [decodeCommand, h]

/-- The opcode map keeps the opcode: the row selected is the one that bears the number in the opcode field,
for each of the eight rows (R49). -/
theorem canonicalFields_decodeFields_op (c : CommandWord) : (canonicalFields (decodeFields c)).op = c.op := by
  have hlt : c.op.toNat < 8 := c.op.isLt
  apply BitVec.eq_of_toNat_eq
  unfold decodeFields
  interval_cases c.op.toNat <;> rfl

/-- What stands above the count and data fields of an L-bit pattern is three bits wide (R47). -/
theorem div_lt_of_lt_commandBits (h : cmd < 2 ^ w.commandBits) : cmd / 2 ^ (w.bits + 8) < 2 ^ 3 := by
  apply Nat.div_lt_of_lt_mul
  rwa [← Nat.pow_add]

/-- Settles O3: the opcode field of an L-bit pattern is the whole quotient (`div_lt_of_lt_commandBits`), and the
decoded command bears it (`canonicalFields_decodeFields_op`). -/
theorem everyPatternDecodesByItsTopBits : Obligations.EveryPatternDecodesByItsTopBits := by
  intro w cmd h
  refine ⟨_, decodeCommand_of_commandOfNat (commandOfNat_of_lt h), ?_⟩
  rw [canonicalFields_decodeFields_op]
  exact Nat.mod_eq_of_lt (div_lt_of_lt_commandBits h)

theorem bits_add_eight_mod_four (w : Width) : (w.bits + 8) % 4 = 0 := by
  cases w <;> rfl

/-- A command word is its header, `op` above `count`, laid above the data field (R48). -/
theorem commandToNat_eq_header (w : Width) (c : CommandWord) :
    commandToNat w c = 2 ^ w.bits * (c.op.toNat * 2 ^ 8 + c.count.toNat) + c.data.toNat := by
  rw [commandToNat]
  ring

theorem commandToNat_div_header (h : Word.fits w c.data) :
    commandToNat w c / 2 ^ w.bits = c.op.toNat * 2 ^ 8 + c.count.toNat := by
  rw [commandToNat_eq_header, Nat.mul_add_div (Nat.two_pow_pos _), Nat.div_eq_of_lt h, Nat.add_zero]

theorem commandToNat_mod_data (h : Word.fits w c.data) : commandToNat w c % 2 ^ w.bits = c.data.toNat := by
  rw [commandToNat_eq_header, Nat.mul_add_mod, Nat.mod_eq_of_lt h]

/-- The opcode is what is left of the header above the eight bits of `count`. -/
theorem commandToNat_div_op (h : Word.fits w c.data) : commandToNat w c / 2 ^ (w.bits + 8) = c.op.toNat := by
  have hc : c.count.toNat < 2 ^ 8 := c.count.isLt
  rw [Nat.pow_add, ← Nat.div_div_eq_div_mul, commandToNat_div_header h]
  omega

/-- The decoder reads a command word's own fields back: of the header, the count field takes the low eight bits. -/
theorem commandOfNat_commandToNat (h : Word.fits w c.data) : commandOfNat w (commandToNat w c) = .ok c := by
  have hcount : BitVec.ofNat 8 (c.op.toNat * 2 ^ 8 + c.count.toNat) = c.count := by
    apply BitVec.eq_of_toNat_eq
    rw [BitVec.toNat_ofNat, Nat.mul_add_mod_self_right, Nat.mod_eq_of_lt c.count.isLt]
  rw [commandOfNat_of_lt (commandToNat_lt h), commandToNat_div_op h, commandToNat_div_header h,
    commandToNat_mod_data h, hcount]
  simp only [BitVec.ofNat_toNat, BitVec.setWidth_eq]

/-- Settles O5: the length bound, each field by division or remainder, and the read-back
(`commandOfNat_commandToNat`); the number form is the definition of `commandToNat`. -/
theorem commandWordFieldsByPosition : Obligations.CommandWordFieldsByPosition := fun w _ h =>
  ⟨rfl, bits_add_eight_mod_four w, rfl, commandToNat_lt h, commandToNat_div_op h, commandToNat_div_header h,
    commandToNat_mod_data h, commandOfNat_commandToNat h⟩

end Sys2Proof
end

section
/-!
PROOFS. The mask generator bit by bit and at its two ends, and the commands BITSIZE and MASK that answer from the
datapath without touching a register (40_datapath.md R64, R72, R73).
-/

namespace Sys2Proof.Machine

variable (w : Width)

/-- Bit i of NMASK(n) is 1 exactly for i < n: its number is 2^n - 1, whose binary digits are n ones (R64). -/
theorem getLsbD_nmask {n : Nat} (h : n ≤ w.bits) (i : Nat) : (nmask w n).getLsbD i = decide (i < n) := by
  rw [← BitVec.testBit_toNat, toNat_nmask w h, Nat.testBit_two_pow_sub_one]

/-- NMASK(0) = 0: here the shift amount is W, and no bit of ALLONES is left (R67). -/
@[simp] theorem nmask_zero : nmask w 0 = 0 :=
  BitVec.eq_of_toNat_eq (toNat_nmask w w.bits.zero_le)

/-- NMASK(W) = ALLONES: a shift by 0. -/
@[simp] theorem nmask_bits : nmask w w.bits = allOnes w :=
  BitVec.eq_of_toNat_eq ((toNat_nmask w le_rfl).trans (toNat_allOnes w).symm)

/-- The number W fits in a word of W bits (R72). -/
theorem fits_widthWord : Word.fits w (widthWord w) := by
  rw [Word.fits, toNat_widthWord]
  exact w.bits_lt_pow

/-- In contract MASK fills the response stage with NMASK(n) and does nothing else (R73). -/
theorem exec_mask_of_le {n : Count} {s : State} (h : n.toNat ≤ s.width.bits) :
    exec (.mask n) s = .next (respond (nmask s.width n.toNat) s) :=
  if_pos (decide_eq_true h)

/-- Settles O24: the number (`toNat_nmask`) and the bits (`getLsbD_nmask`); the shift is the definition of `nmask`. -/
theorem maskGeneratorSetsTheLowBits : Obligations.MaskGeneratorSetsTheLowBits := fun w _ h =>
  ⟨rfl, toNat_nmask w h, getLsbD_nmask w h⟩

/-- Settles O8: the response is NMASK(n) (`exec_mask_of_le`), whose two ends are `nmask_zero` and `nmask_bits`. -/
theorem maskAnswersTheLowOnes : Obligations.MaskAnswersTheLowOnes := by
  refine ⟨fun _ _ => rfl, fun n s h => ?_⟩
  refine ⟨nmask s.width n.toNat, toNat_nmask s.width h, rfl, fun h0 => ?_, fun hw => ?_, exec_mask_of_le h⟩
  · rw [h0, nmask_zero]
  · rw [hw, nmask_bits]

/-- Settles O7: the response is `widthWord`, the number W as a word, in every state. -/
theorem bitsizeAnswersTheWidth : Obligations.BitsizeAnswersTheWidth :=
  ⟨fun _ _ => rfl, fun s => ⟨widthWord s.width, toNat_widthWord s.width, fits_widthWord s.width, rfl⟩⟩

end Sys2Proof.Machine
end

section
/-!
PROOFS. WNEW and FINISH, said once each, and the clear packer that both of them and a reset edge leave (41_writer.md
R78, R82, R84). From these, that a packer is back in contract afterwards and takes any field of up to W bits.
-/

namespace Sys2Proof.Machine

variable {s t : State}

/-- WNEW has no precondition and one outcome (R78). -/
theorem exec_wnew (s : State) : exec .wnew s = .next (respond 0 (setPacker 0 0 s)) := rfl

/-- FINISH has no precondition and one outcome; its response is `acc` as it was before the command (R82). -/
theorem exec_finish (s : State) : exec .finish s = .next (respond s.acc (setPacker 0 0 s)) := rfl

theorem packerClear_respond_setPacker_zero (v : Word) (s : State) : (respond v (setPacker 0 0 s)).packerClear :=
  ⟨rfl, rfl⟩

theorem packerClear_of_exec_wnew (h : exec .wnew s = .next t) : t.packerClear := by
  rw [exec_wnew] at h
  cases h
  exact packerClear_respond_setPacker_zero _ _

theorem packerClear_of_exec_finish (h : exec .finish s = .next t) : t.packerClear := by
  rw [exec_finish] at h
  cases h
  exact packerClear_respond_setPacker_zero _ _

/-- A reset edge clears the packer, a command presented at the same edge notwithstanding (R119). -/
theorem packerClear_of_step_rst (hr : (edgeInputs s).rst = true) (h : step s = .next t) : t.packerClear := by
  rw [step_of_rst hr, resetEdge_eq] at h
  cases h
  exact ⟨rfl, rfl⟩

/-- A clear packer has all W bits free: the contract of WRITE is then a bound on the count alone (R80). -/
theorem writeInContract_of_packerClear (h : s.packerClear) (count : Count) :
    writeInContract count s = decide (count.toNat ≤ s.width.bits) := by
  obtain ⟨-, hbits⟩ := h
  rw [writeInContract, hbits, Nat.zero_add]

theorem wbits_le_of_packerClear (h : s.packerClear) : s.wbits ≤ s.width.bits := by
  obtain ⟨-, hbits⟩ := h
  rw [hbits]
  exact Nat.zero_le _

/-- Settles O10: the one outcome of WNEW (`exec_wnew`) has a clear packer, which is in contract. -/
theorem wnewClearsThePacker : Obligations.WnewClearsThePacker :=
  ⟨fun _ _ => rfl, fun s => ⟨exec_wnew s, fun _ h => wbits_le_of_packerClear (packerClear_of_exec_wnew h)⟩⟩

/-- Settles O13: the one outcome of FINISH (`exec_finish`), in every state. -/
theorem finishAnswersTheAccumulator : Obligations.FinishAnswersTheAccumulator :=
  ⟨fun _ _ => rfl, exec_finish⟩

/-- Settles O22: FINISH, WNEW and a reset edge each leave a clear packer, and on a clear packer the contract of WRITE
is `writeInContract_of_packerClear`. -/
theorem finishLeavesAFreshPacker : Obligations.FinishLeavesAFreshPacker := by
  intro s t u r hfinish hwnew hrst hstep
  obtain ⟨htAcc, htBits⟩ := packerClear_of_exec_finish hfinish
  obtain ⟨huAcc, huBits⟩ := packerClear_of_exec_wnew hwnew
  obtain ⟨hrAcc, hrBits⟩ := packerClear_of_step_rst hrst hstep
  refine ⟨htAcc, htBits, huAcc.trans htAcc.symm, huBits.trans htBits.symm, hrAcc.trans htAcc.symm,
    hrBits.trans htBits.symm, fun c hc => ?_⟩
  rw [writeInContract_of_packerClear ⟨htAcc, htBits⟩, decide_eq_true hc]

end Sys2Proof.Machine
end

section
/-!
PROOFS. The command RNEW in every state: it loads the word, puts the cursor and its ghost counter at 0, and so leaves
the unpacker in contract wherever the cursor stood (42_reader.md R87).
-/

namespace Sys2Proof.Machine

variable {value : Word} {s t : State}

theorem rbits_of_exec_rnew (h : exec (.rnew value) s = .next t) : t.rbits = 0 := by
  obtain rfl := exec_rnew_eq_next.mp h
  simp

/-- No bit of the new word has been read yet, so none has been read past its end (R19, R87). -/
theorem rbits_le_of_exec_rnew (h : exec (.rnew value) s = .next t) : t.rbits ≤ t.width.bits := by
  rw [rbits_of_exec_rnew h]
  exact Nat.zero_le _

/-- Settles O14: the one outcome of RNEW (`exec_rnew_eq_next`), in every state, and the contract by its ghost counter
(`rbits_le_of_exec_rnew`). -/
theorem rnewLoadsTheUnpacker : Obligations.RnewLoadsTheUnpacker :=
  ⟨fun _ _ => rfl, fun _ _ => ⟨exec_rnew_eq_next.mpr rfl, fun _ => rbits_le_of_exec_rnew⟩⟩

end Sys2Proof.Machine
end

section
/-!
PROOFS. Every edge has a next state, whichever of its three kinds it is, and there is no fault to raise
(60_exceptions.md R105). From these, that nothing stops the block.
-/

namespace Sys2Proof.Machine

/-- A reset edge and an edge without a command have a next state by their definitions, and an edge that accepts a
command has one because every command completes (`step_responds_of_accepts`). -/
theorem step_total (s : State) : ∃ t, step s = .next t := by
  cases hr : (edgeInputs s).rst with
  | true => exact ⟨_, step_of_rst hr⟩
  | false =>
    cases ha : accepts (edgeInputs s) with
    | true =>
      obtain ⟨t, -, ht, -⟩ := step_responds_of_accepts ha
      exact ⟨t, ht⟩
    | false => exact ⟨_, step_of_idle hr ha⟩

/-- `Fault` has no constructor (log entry 10). -/
theorem not_fault (f : Fault) : False := nomatch f

/-- Settles O36: every command completes with a response (`exec_responds`), every edge has a next state
(`step_total`), and there is no fault (`not_fault`). -/
theorem nothingStopsTheBlock : Obligations.NothingStopsTheBlock :=
  ⟨exec_responds, step_total, not_fault⟩

end Sys2Proof.Machine
end

section
/-!
PROOFS. The reset edge in every state (70_reset_and_hazards.md R119): no command is accepted at it, and the state it
leaves has the reset values, which meet the invariant of a block in contract. From these, that a reset wins over
whatever was held or presented.
-/

namespace Sys2Proof.Machine

variable {s : State} {e : PortInputs}

/-- `cmd_ready` is 0 while `rst` is 1, so `cmd_valid` does not matter (R31, R32). -/
theorem accepts_eq_false_of_rst (h : e.rst = true) : accepts e = false := by
  rw [accepts, h]
  rfl

theorem fits_zero (w : Width) : Word.fits w 0 :=
  Nat.two_pow_pos w.bits

/-- No bit has been written and no bit of `acc` is set (R19). -/
theorem packerClean_of_packerClear (h : s.packerClear) : s.packerClean := by
  obtain ⟨hacc, hbits⟩ := h
  intro _
  rw [hacc, hbits]
  exact Nat.two_pow_pos 0

/-- The reset values meet R19: zero words fit every width, the packer is clear, and the cursor stands at 0 with its
ghost counter. -/
theorem inv_resetAt (w : Width) : (State.resetAt w).inv := by
  have hwords : (State.resetAt w).wordsFit := ⟨fits_zero w, fits_zero w, fun _ h => nomatch h⟩
  have hclear : (State.resetAt w).packerClear := ⟨State.resetAt_acc w, State.resetAt_wbits w⟩
  have hcursor : (State.resetAt w).cursorTrue := fun _ => rfl
  exact ⟨hwords, packerClean_of_packerClear hclear, hcursor⟩

/-- The invariant reads none of the fields in which a reset edge differs from the reset state (`resetEdge_eq`). -/
theorem inv_resetEdge (s : State) : (resetEdge s).inv :=
  inv_resetAt s.width

/-- Settles O32: a reset edge accepts nothing (`accepts_eq_false_of_rst`), its one outcome (`step_of_rst`) is the reset
edge's state, and that state meets the invariant (`inv_resetEdge`). -/
theorem resetWinsOverEverything : Obligations.ResetWinsOverEverything := by
  intro s hr
  have hsilent : rspValid (resetEdge (pastEdge s)) = false := rspValid_none _ rfl
  exact ⟨accepts_eq_false_of_rst hr, _, step_of_rst hr, rfl, rfl, rfl, rfl, rfl, rfl, hsilent, rfl, inv_resetEdge _⟩

end Sys2Proof.Machine
end

section
/-!
PROOFS. The canonical encoding and the decoder are inverse to each other (30_encoding.md R52, R54, R59): the opcode map
reads the canonical fields of every command back, and of a decoded word only the fields its command uses remain.
-/

namespace Sys2Proof

variable {w : Width} {cmd : Nat} {c : CommandWord}

/-- Each row keeps exactly the operands of its command, so the opcode map undoes it (R49, R59). -/
theorem decodeFields_canonicalFields (i : Instr) : decodeFields (canonicalFields i) = i := by
  cases i <;> rfl

/-- Settles O1: the canonical fields fit their places, so they are read back from the number
(`commandOfNat_commandToNat`), and the opcode map gives their command back (`decodeFields_canonicalFields`). -/
theorem decodeOfEncodeIsIdentity : Obligations.DecodeOfEncodeIsIdentity := by
  intro w i h
  have hfields : commandOfNat w (encode w i) = .ok (canonicalFields i) :=
    commandOfNat_commandToNat (canonicalFields_data_fits h)
  rw [decodeCommand_of_commandOfNat hfields, decodeFields_canonicalFields]

/-- Only MASK, WRITE and READ keep the count field (R49, R52). -/
theorem canonicalFields_decodeFields_count (c : CommandWord) :
    (canonicalFields (decodeFields c)).count.toNat =
      if c.op.toNat = 1 ∨ c.op.toNat = 3 ∨ c.op.toNat = 6 then c.count.toNat else 0 := by
  have hlt : c.op.toNat < 8 := c.op.isLt
  unfold decodeFields
  interval_cases c.op.toNat <;> rfl

/-- Only WRITE and RNEW keep the data field (R49, R52). -/
theorem canonicalFields_decodeFields_data (c : CommandWord) :
    (canonicalFields (decodeFields c)).data.toNat =
      if c.op.toNat = 3 ∨ c.op.toNat = 5 then c.data.toNat else 0 := by
  have hlt : c.op.toNat < 8 := c.op.isLt
  unfold decodeFields
  interval_cases c.op.toNat <;> rfl

/-- Settles O2: of the three fields of the decoded command, `op` is the word's own and the other two are kept or 0 by
the row. -/
theorem encodeOfDecodeClearsIgnoredFields : Obligations.EncodeOfDecodeClearsIgnoredFields := by
  intro w cmd c h
  refine ⟨decodeFields c, decodeCommand_of_commandOfNat h, ?_⟩
  rw [encode, commandToNat, canonicalFields_decodeFields_op, canonicalFields_decodeFields_count,
    canonicalFields_decodeFields_data]

/-- The decoder's one check fails on a number of more than L bits (R117). -/
theorem commandOfNat_of_le (h : 2 ^ w.commandBits ≤ cmd) : commandOfNat w cmd = .error .wrongLength :=
  if_neg (Nat.not_lt.mpr h)

/-- Settles O4: the error of `commandOfNat_of_le` is the decoder's answer. -/
theorem overlongWordIsRejected : Obligations.OverlongWordIsRejected := by
  intro w cmd h
  rw [decodeCommand, commandOfNat_of_le h]

/-- Settles O6: the decoder evaluates on each of the sixteen words. -/
theorem sampleCommandWordsDecode : Obligations.SampleCommandWordsDecode :=
  ⟨rfl, rfl, rfl, rfl, rfl, rfl, rfl, rfl, rfl, rfl, rfl, rfl, rfl, rfl, rfl, rfl⟩

end Sys2Proof
end

section
/-!
PROOFS. The shifts bit by bit, and the accumulator that WRITE builds: the low bits of the value laid below the shifted
accumulator, where the OR is a sum (40_datapath.md R62 to R67, 41_writer.md R79).
-/

namespace Sys2Proof.Machine

variable (w : Width)

theorem getLsbD_allOnes (i : Nat) : (allOnes w).getLsbD i = decide (i < w.bits) := by
  rw [← nmask_bits, getLsbD_nmask w le_rfl]

/-- A word of W bits has no bit at position W or above (R7). -/
theorem getLsbD_of_fits {x : Word} (h : Word.fits w x) {i : Nat} (hi : w.bits ≤ i) : x.getLsbD i = false := by
  rw [← BitVec.testBit_toNat]
  exact Nat.testBit_lt_two_pow (h.trans_le (Nat.pow_le_pow_right two_pos hi))

/-- SHL bit by bit: zeros enter at the bottom, and what passes position W is lost (R62). -/
theorem getLsbD_shl (x : Word) (s i : Nat) :
    (shl w x s).getLsbD i = (decide (s ≤ i) && decide (i < w.bits) && x.getLsbD (i - s)) := by
  have hw := w.bits_le
  rw [shl, BitVec.getLsbD_and, BitVec.getLsbD_shiftLeft, getLsbD_allOnes]
  by_cases hi : i < w.bits
  · have h128 : i < 128 := by omega
    have hneg : (!decide (i < s)) = decide (s ≤ i) := by rw [← decide_not, decide_eq_decide, Nat.not_lt]
    simp [hi, h128, hneg]
  · simp [hi]

/-- SHR bit by bit, of a word of W bits: zeros enter at the top (R63). -/
theorem getLsbD_shr {x : Word} (h : Word.fits w x) (s i : Nat) :
    (shr x s).getLsbD i = (decide (i + s < w.bits) && x.getLsbD (i + s)) := by
  rw [shr, BitVec.getLsbD_ushiftRight, Nat.add_comm s i]
  by_cases hi : i + s < w.bits
  · simp [hi]
  · simp [hi, getLsbD_of_fits w h (Nat.not_lt.mp hi)]

theorem shl_zero {x : Word} (h : Word.fits w x) : shl w x 0 = x :=
  BitVec.eq_of_toNat_eq (by rw [toNat_shl, Nat.pow_zero, Nat.mul_one, Nat.mod_eq_of_lt h])

/-- The amount is not taken modulo W: a shift by W leaves nothing (R67). -/
theorem shl_bits (x : Word) : shl w x w.bits = 0 :=
  BitVec.eq_of_toNat_eq (by rw [toNat_shl, Nat.mul_mod_left]; rfl)

theorem shr_zero (x : Word) : shr x 0 = x :=
  BitVec.eq_of_toNat_eq (by rw [toNat_shr, Nat.pow_zero, Nat.div_one])

/-- A shift by W leaves nothing of a word of W bits (R67). -/
theorem shr_bits {x : Word} (h : Word.fits w x) : shr x w.bits = 0 :=
  BitVec.eq_of_toNat_eq (by rw [toNat_shr, Nat.div_eq_of_lt h]; rfl)

/-- Settles O23: by value `toNat_shl` and `toNat_shr`, by bit `getLsbD_shl` and `getLsbD_shr`, and the amounts 0 and W. -/
theorem shiftersByValueAndByBit : Obligations.ShiftersByValueAndByBit := fun w x s h _ =>
  ⟨toNat_shl w x s, getLsbD_shl w x s, shl_zero w h, shl_bits w x, toNat_shr x s, getLsbD_shr w h s, shr_zero x,
    shr_bits w h⟩

/-- The accumulator after a WRITE in contract: the low n bits of the value below the accumulator shifted by n (R79). -/
def merged (w : Width) (acc value : Word) (n : Nat) : Word :=
  shl w acc n ||| (value &&& nmask w n)

variable {n : Nat} (x value : Word)

/-- What SHL leaves is a multiple of 2^n: the low n bits are vacated. -/
theorem toNat_shl_eq_mul (h : n ≤ w.bits) : (shl w x n).toNat = 2 ^ n * (x.toNat % 2 ^ (w.bits - n)) := by
  have hsplit : 2 ^ w.bits = 2 ^ n * 2 ^ (w.bits - n) := by rw [← Nat.pow_add, Nat.add_sub_cancel' h]
  rw [toNat_shl, Nat.mul_comm, hsplit, Nat.mul_mod_mul_left]

theorem and_nmask_lt (h : n ≤ w.bits) : (value &&& nmask w n).toNat < 2 ^ n := by
  rw [toNat_and_nmask w value h]
  exact Nat.mod_lt _ (Nat.two_pow_pos n)

/-- A bit of the shifted accumulator is at position n or above, a bit of the masked value below it (R65). -/
theorem shl_and_masked (h : n ≤ w.bits) : shl w x n &&& (value &&& nmask w n) = 0 := by
  apply BitVec.eq_of_getLsbD_eq
  intro i _
  rw [BitVec.getLsbD_and, BitVec.getLsbD_and, getLsbD_shl, getLsbD_nmask w h]
  by_cases hi : i < n
  · simp [Nat.not_le.mpr hi]
  · simp [hi]

/-- The two operands of WRITE's OR meet nowhere, so it is a sum without carries (R65). -/
theorem toNat_merged_eq_add (h : n ≤ w.bits) :
    (merged w x value n).toNat = (shl w x n).toNat + (value &&& nmask w n).toNat := by
  rw [merged, BitVec.toNat_or, toNat_shl_eq_mul w x h, Nat.two_pow_add_eq_or_of_lt (and_nmask_lt w value h)]

/-- Settles O25: the remainder is `toNat_and_nmask`, the disjointness `shl_and_masked`, the sum
`toNat_merged_eq_add`. -/
theorem mergedFieldMeetsVacatedBits : Obligations.MergedFieldMeetsVacatedBits := fun w x value _ h =>
  ⟨toNat_and_nmask w value h, shl_and_masked w x value h, toNat_merged_eq_add w x value h⟩

/-- The accumulator after WRITE as a number: the field in the low n bits, above it what fits of the old one. -/
theorem toNat_merged (h : n ≤ w.bits) :
    (merged w x value n).toNat = 2 ^ n * (x.toNat % 2 ^ (w.bits - n)) + value.toNat % 2 ^ n := by
  rw [toNat_merged_eq_add w x value h, toNat_shl_eq_mul w x h, toNat_and_nmask w value h]

/-- Where the old accumulator has k bits and k + n bits fit in the word, no bit is lost (R79). -/
theorem toNat_merged_of_lt {k : Nat} (hx : x.toNat < 2 ^ k) (h : k + n ≤ w.bits) :
    (merged w x value n).toNat = x.toNat * 2 ^ n + value.toNat % 2 ^ n := by
  have hle : 2 ^ k ≤ 2 ^ (w.bits - n) := Nat.pow_le_pow_right two_pos (Nat.le_sub_of_add_le h)
  rw [toNat_merged w x value (by omega), Nat.mod_eq_of_lt (hx.trans_le hle), Nat.mul_comm]

/-- a < 2^m above b < 2^n is below 2^(m + n). -/
theorem mul_add_lt_two_pow {a b m n : Nat} (ha : a < 2 ^ m) (hb : b < 2 ^ n) : a * 2 ^ n + b < 2 ^ (m + n) :=
  calc a * 2 ^ n + b
      < (a + 1) * 2 ^ n := by rw [Nat.add_mul, Nat.one_mul]; exact Nat.add_lt_add_left hb _
    _ ≤ 2 ^ m * 2 ^ n := Nat.mul_le_mul_right _ ha
    _ = 2 ^ (m + n) := (Nat.pow_add 2 m n).symm

/-- k bits with n more below them are k + n bits (R19). -/
theorem merged_lt {k : Nat} (hx : x.toNat < 2 ^ k) (h : k + n ≤ w.bits) :
    (merged w x value n).toNat < 2 ^ (k + n) := by
  rw [toNat_merged_of_lt w x value hx h]
  exact mul_add_lt_two_pow hx (Nat.mod_lt _ (Nat.two_pow_pos n))

theorem fits_or {x y : Word} (hx : Word.fits w x) (hy : Word.fits w y) : Word.fits w (x ||| y) := by
  rw [Word.fits, BitVec.toNat_or]
  exact Nat.or_lt_two_pow hx hy

/-- AND with a mask of at most W ones leaves a word of W bits, whatever the operand. -/
theorem fits_and_nmask (h : n ≤ w.bits) : Word.fits w (value &&& nmask w n) :=
  (and_nmask_lt w value h).trans_le (Nat.pow_le_pow_right two_pos h)

theorem fits_nmask (h : n ≤ w.bits) : Word.fits w (nmask w n) := by
  rw [Word.fits, toNat_nmask w h]
  exact Nat.sub_one_lt_of_le (Nat.two_pow_pos n) (Nat.pow_le_pow_right two_pos h)

theorem fits_merged (h : n ≤ w.bits) : Word.fits w (merged w x value n) :=
  fits_or w (fits_and_allOnes w _) (fits_and_nmask w value h)

/-- A field of no bits leaves the accumulator as it is (R81). -/
theorem merged_zero {x : Word} (h : Word.fits w x) : merged w x value 0 = x := by
  simp [merged, shl_zero w h]

end Sys2Proof.Machine
end

section
/-!
PROOFS. MASK, WRITE and READ in contract and out of it as equations, one each (40_datapath.md R74, 41_writer.md R79,
R80, 42_reader.md R88, R89). From these, what the commands answer and what they draw.
-/

namespace Sys2Proof.Machine

variable {s t : State} {n count : Count} {value : Word}

theorem exec_reserved7 (s : State) : exec .reserved7 s = .next (respond 0 s) := rfl

theorem maskInContract_iff : maskInContract n s = true ↔ n.toNat ≤ s.width.bits := decide_eq_true_iff

theorem writeInContract_iff : writeInContract count s = true ↔ s.wbits + count.toNat ≤ s.width.bits :=
  decide_eq_true_iff

theorem readInContract_iff : readInContract count s = true ↔ s.rbits + count.toNat ≤ s.width.bits :=
  decide_eq_true_iff

/-- Out of contract MASK draws its response and does nothing else (R74). -/
theorem exec_mask_of_lt (h : s.width.bits < n.toNat) :
    exec (.mask n) s = .next (respond (anyWord s.width s.draws) (drawn s)) :=
  if_neg (mt maskInContract_iff.mp (Nat.not_le.mpr h))

/-- In contract WRITE appends its field to the packer (R79). -/
theorem exec_write_of_le (h : s.wbits + count.toNat ≤ s.width.bits) :
    exec (.write count value) s =
      .next (respond 0 (setPacker (merged s.width s.acc value count.toNat) (s.wbits + count.toNat) s)) :=
  if_pos (writeInContract_iff.mpr h)

/-- Out of contract WRITE draws the accumulator and counts its bits all the same (R80). -/
theorem exec_write_of_lt (h : s.width.bits < s.wbits + count.toNat) :
    exec (.write count value) s =
      .next (respond 0 (setPacker (anyWord s.width s.draws) (s.wbits + count.toNat) (drawn s))) :=
  if_neg (mt writeInContract_iff.mp (Nat.not_le.mpr h))

/-- In contract and with a shift amount, READ extracts and moves the cursor (R88). -/
theorem exec_read_of_shift {shift : Nat} (hc : readInContract count s = true)
    (hk : readShift s.width count.toNat s.pos.toNat = some shift) :
    exec (.read count) s =
      .next (respond (shr s.bitVec shift &&& nmask s.width count.toNat)
        (setCursor (s.pos + count) (s.rbits + count.toNat) s)) := by
  simp [exec, execRead, hc, hk]

/-- Out of contract, or without a shift amount, READ's results are unspecified (R66, R89). -/
theorem exec_read_unspecified
    (h : readInContract count s = false ∨ readShift s.width count.toNat s.pos.toNat = none) :
    exec (.read count) s = .next (readUnspecified count s) := by
  cases hc : readInContract count s with
  | false => exact if_neg (Bool.eq_false_iff.mp hc)
  | true =>
    have hk := h.resolve_left (by simp [hc])
    simp [exec, execRead, hc, hk]

/-- Out of contract READ draws its response and its cursor and counts its bits all the same (R89). -/
theorem exec_read_of_lt (h : s.width.bits < s.rbits + count.toNat) :
    exec (.read count) s = .next (readUnspecified count s) :=
  exec_read_unspecified (.inl (Bool.eq_false_iff.mpr (mt readInContract_iff.mp (Nat.not_le.mpr h))))

/-- READ's response in contract: the word shifted right by W - count - pos and masked to `count` bits (R88). -/
def extracted (w : Width) (x : Word) (pos count : Nat) : Word :=
  shr x (w.bits - count - pos) &&& nmask w count

/-- In contract, with the cursor at its ghost counter, READ's shift amount is not negative: it answers the next field
and moves the cursor (R88). -/
theorem exec_read_of_le (h : s.rbits + count.toNat ≤ s.width.bits) (hpos : s.pos.toNat = s.rbits) :
    exec (.read count) s =
      .next (respond (extracted s.width s.bitVec s.pos.toNat count.toNat)
        (setCursor (s.pos + count) (s.rbits + count.toNat) s)) :=
  exec_read_of_shift (readInContract_iff.mpr h) ((readShift_eq_some s.width).mpr ⟨by omega, rfl⟩)

theorem toNat_extracted (w : Width) (x : Word) (pos : Nat) {n : Nat} (h : n ≤ w.bits) :
    (extracted w x pos n).toNat = x.toNat / 2 ^ (w.bits - n - pos) % 2 ^ n := by
  rw [extracted, toNat_and_nmask w _ h, toNat_shr]

/-- Bit j of READ's response is the bit j places above the lowest one it reads (R88). -/
theorem getLsbD_extracted (w : Width) (x : Word) (pos : Nat) {n : Nat} (h : n ≤ w.bits) (j : Nat) :
    (extracted w x pos n).getLsbD j = (decide (j < n) && x.getLsbD (w.bits - pos - n + j)) := by
  rw [extracted, BitVec.getLsbD_and, getLsbD_nmask w h, shr, BitVec.getLsbD_ushiftRight, Bool.and_comm,
    Nat.sub_right_comm]

/-- While the cursor stays within the word it does not wrap: W is below 2^8 (R66). -/
theorem toNat_add_count {w : Width} {pos count : Count} (h : pos.toNat + count.toNat ≤ w.bits) :
    (pos + count).toNat = pos.toNat + count.toNat := by
  have hw := w.bits_le
  exact BitVec.toNat_add_of_lt (by omega)

/-- Settles O9: the outcome is `exec_mask_of_lt`, and a free value is W bits wide by its making. -/
theorem maskOutOfContractDrawsItsResponse : Obligations.MaskOutOfContractDrawsItsResponse := fun _ s h =>
  ⟨fits_anyWord s.width s.draws, exec_mask_of_lt h⟩

/-- Settles O17: the reserved opcode has one outcome (`exec_reserved7`), in every state. -/
theorem reservedOpcodeDoesNothing : Obligations.ReservedOpcodeDoesNothing :=
  ⟨fun _ _ => rfl, exec_reserved7⟩

/-- Settles O11: the outcome is `exec_write_of_le`; its accumulator is an OR of the two operands' numbers, and the sum
`toNat_merged_of_lt` where the old accumulator is below 2^wbits. -/
theorem writeAppendsAField : Obligations.WriteAppendsAField := by
  refine ⟨fun _ _ => rfl, fun count value s h => ?_⟩
  have hcount : count.toNat ≤ s.width.bits := by omega
  refine ⟨merged s.width s.acc value count.toNat, ?_, fun hacc => ⟨?_, ?_⟩, exec_write_of_le h⟩
  · rw [merged, BitVec.toNat_or, toNat_shl, toNat_and_nmask s.width value hcount]
  · exact toNat_merged_of_lt s.width s.acc value hacc h
  · exact merged_lt s.width s.acc value hacc h

/-- Settles O15: the outcome is `exec_read_of_le`, its response by value `toNat_extracted` and by bit
`getLsbD_extracted`, and the cursor does not wrap (`toNat_add_count`). -/
theorem readExtractsTheNextField : Obligations.ReadExtractsTheNextField := by
  refine ⟨fun _ _ => rfl, fun count s h hpos => ?_⟩
  have hcount : count.toNat ≤ s.width.bits := by omega
  have hcursor : s.pos.toNat + count.toNat ≤ s.width.bits := by omega
  exact ⟨extracted s.width s.bitVec s.pos.toNat count.toNat, toNat_extracted s.width s.bitVec _ hcount,
    getLsbD_extracted s.width s.bitVec _ hcount, toNat_add_count hcursor, exec_read_of_le h hpos⟩

/-- WNEW, WRITE, RNEW and the reserved opcode give nothing away (R35, R46). -/
theorem rsp_of_silent {i : Instr}
    (hi : i = .wnew ∨ i = .reserved7 ∨ (∃ c v, i = .write c v) ∨ ∃ v, i = .rnew v) (h : exec i s = .next t) :
    t.rsp = some 0 := by
  obtain rfl | rfl | ⟨c, v, rfl⟩ | ⟨v, rfl⟩ := hi
  · cases h; rfl
  · cases h; rfl
  · obtain ⟨-, rfl⟩ | ⟨-, rfl⟩ := execWrite_cases h <;> rfl
  · cases h; rfl

/-- With no reset edge coming, the port shows the response that the stage holds (R33). -/
theorem port_shows_rsp {v : Word} (hrsp : t.rsp = some v) (hr : (edgeInputs t).rst = false) :
    rspValid t = true ∧ rspData t = v :=
  ⟨(rspValid_iff t).mpr ⟨⟨v, hrsp⟩, hr⟩, by simp [rspData_some t hrsp, hr]⟩

/-- Settles O18: the stage holds 0 (`rsp_of_silent`), and the port shows what it holds (`port_shows_rsp`). -/
theorem silentCommandsAnswerZero : Obligations.SilentCommandsAnswerZero := fun _ _ _ hi h =>
  ⟨rsp_of_silent hi h, port_shows_rsp (rsp_of_silent hi h)⟩

end Sys2Proof.Machine
end

section
/-!
PROOFS. What each command leaves unchanged (10_state.md R14 to R18): a command outside the packer's three keeps the
packer, one outside the unpacker's two keeps the unpacker, none touches the host's inputs, and only a command out of
contract draws. From these, the frames and the writers of each register.
-/

namespace Sys2Proof.Machine

variable {i : Instr} {s t : State}

/-- Only WNEW, WRITE and FINISH write the packer (R14, R17). -/
theorem exec_keeps_packer (hi : isPackerCommand i = false) (h : exec i s = .next t) :
    t.acc = s.acc ∧ t.wbits = s.wbits := by
  cases i with
  | wnew | write | finish => cases hi
  | mask n => obtain ⟨-, rfl⟩ | ⟨-, rfl⟩ := execMask_cases h <;> exact ⟨rfl, rfl⟩
  | read count => obtain ⟨-, _, -, rfl⟩ | ⟨-, rfl⟩ := execRead_cases h <;> exact ⟨rfl, rfl⟩
  | bitsize | rnew | reserved7 => cases h; exact ⟨rfl, rfl⟩

/-- Only RNEW and READ write the unpacker (R15 to R17). -/
theorem exec_keeps_unpacker (hi : isUnpackerCommand i = false) (h : exec i s = .next t) :
    t.bitVec = s.bitVec ∧ t.pos = s.pos ∧ t.rbits = s.rbits := by
  cases i with
  | rnew | read => cases hi
  | mask n => obtain ⟨-, rfl⟩ | ⟨-, rfl⟩ := execMask_cases h <;> exact ⟨rfl, rfl, rfl⟩
  | write count value => obtain ⟨-, rfl⟩ | ⟨-, rfl⟩ := execWrite_cases h <;> exact ⟨rfl, rfl, rfl⟩
  | bitsize | wnew | finish | reserved7 => cases h; exact ⟨rfl, rfl, rfl⟩

/-- READ keeps the word it reads, in contract or out of it (R91). -/
theorem exec_read_keeps_bitVec {count : Count} (h : exec (.read count) s = .next t) : t.bitVec = s.bitVec := by
  obtain ⟨-, _, -, rfl⟩ | ⟨-, rfl⟩ := execRead_cases h <;> rfl

/-- What the host drives, and the free values on the idle port, are no command's to change. -/
theorem exec_keeps_host (h : exec i s = .next t) : t.inputs = s.inputs ∧ t.idles = s.idles := by
  cases i with
  | mask n => obtain ⟨-, rfl⟩ | ⟨-, rfl⟩ := execMask_cases h <;> exact ⟨rfl, rfl⟩
  | write count value => obtain ⟨-, rfl⟩ | ⟨-, rfl⟩ := execWrite_cases h <;> exact ⟨rfl, rfl⟩
  | read count => obtain ⟨-, _, -, rfl⟩ | ⟨-, rfl⟩ := execRead_cases h <;> exact ⟨rfl, rfl⟩
  | bitsize | wnew | finish | rnew | reserved7 => cases h; exact ⟨rfl, rfl⟩

/-- With the cursor at its ghost counter, a READ in contract has a shift amount (R66, R88). -/
theorem readShift_ne_none {count : Count} (hc : readInContract count s = true) (hcur : s.cursorTrue) :
    readShift s.width count.toNat s.pos.toNat ≠ none := by
  have hle := readInContract_iff.mp hc
  have hpos : s.pos.toNat = s.rbits := hcur (by omega)
  rw [(readShift_eq_some s.width).mpr ⟨by omega, rfl⟩]
  exact Option.some_ne_none _

/-- A command in contract draws nothing; for READ this takes a cursor at its ghost counter (R10, R19). -/
theorem exec_draws (hc : inContract i s = true) (hcur : isUnpackerCommand i = true → s.cursorTrue)
    (h : exec i s = .next t) : t.draws = s.draws := by
  cases i with
  | mask n =>
    obtain ⟨-, rfl⟩ | ⟨hn, -⟩ := execMask_cases h
    · rfl
    · exact absurd hc (Bool.eq_false_iff.mp hn)
  | write count value =>
    obtain ⟨-, rfl⟩ | ⟨hn, -⟩ := execWrite_cases h
    · rfl
    · exact absurd hc (Bool.eq_false_iff.mp hn)
  | read count =>
    obtain ⟨-, _, -, rfl⟩ | ⟨hn | hn, -⟩ := execRead_cases h
    · rfl
    · exact absurd hc (Bool.eq_false_iff.mp hn)
    · exact absurd hn (readShift_ne_none hc (hcur rfl))
  | bitsize | wnew | finish | rnew | reserved7 => cases h; rfl

theorem isPackerCommand_iff : isPackerCommand i = true ↔ i = .wnew ∨ i = .finish ∨ ∃ c v, i = .write c v := by
  cases i <;> simp [isPackerCommand]

theorem isUnpackerCommand_iff : isUnpackerCommand i = true ↔ (∃ v, i = .rnew v) ∨ ∃ c, i = .read c := by
  cases i <;> simp [isUnpackerCommand]

/-- No command belongs to both units (R17). -/
theorem isUnpackerCommand_of_isPackerCommand (h : isPackerCommand i = true) : isUnpackerCommand i = false := by
  cases i with
  | wnew | write | finish => rfl
  | bitsize | mask | rnew | read | reserved7 => cases h

theorem isPackerCommand_of_isUnpackerCommand (h : isUnpackerCommand i = true) : isPackerCommand i = false := by
  cases i with
  | rnew | read => rfl
  | bitsize | mask | wnew | write | finish | reserved7 => cases h

/-- Settles O26: a packer command keeps the unpacker (`exec_keeps_unpacker`) and the host's side, and in contract it
draws nothing (`exec_draws`). -/
theorem packerCommandsLeaveTheRest : Obligations.PackerCommandsLeaveTheRest := by
  intro i s t hi h
  have hun := isUnpackerCommand_of_isPackerCommand (isPackerCommand_iff.mpr hi)
  obtain ⟨hvec, hpos, hrbits⟩ := exec_keeps_unpacker hun h
  obtain ⟨hin, hidles⟩ := exec_keeps_host h
  exact ⟨hvec, hpos, hrbits, exec_width h, hin, hidles, fun hc => exec_draws hc (fun hu => by simp [hun] at hu) h⟩

/-- Settles O27: an unpacker command keeps the packer (`exec_keeps_packer`) and the host's side, READ keeps the word,
and in contract with a true cursor nothing is drawn (`exec_draws`). -/
theorem unpackerCommandsLeaveTheRest : Obligations.UnpackerCommandsLeaveTheRest := by
  intro i s t hi h
  have hpk := isPackerCommand_of_isUnpackerCommand (isUnpackerCommand_iff.mpr hi)
  obtain ⟨hacc, hwbits⟩ := exec_keeps_packer hpk h
  obtain ⟨hin, hidles⟩ := exec_keeps_host h
  refine ⟨hacc, hwbits, exec_width h, hin, hidles, ?_, fun hc hcur => exec_draws hc (fun _ => hcur) h⟩
  rintro ⟨c, rfl⟩
  exact exec_read_keeps_bitVec h

/-- Settles O28: BITSIZE, MASK and the reserved opcode are commands of neither unit. -/
theorem statelessCommandsLeaveEveryRegister : Obligations.StatelessCommandsLeaveEveryRegister := by
  intro i s t hi h
  have hneither : isPackerCommand i = false ∧ isUnpackerCommand i = false := by
    obtain rfl | rfl | ⟨n, rfl⟩ := hi <;> exact ⟨rfl, rfl⟩
  obtain ⟨hpk, hun⟩ := hneither
  obtain ⟨hacc, hwbits⟩ := exec_keeps_packer hpk h
  obtain ⟨hvec, hpos, hrbits⟩ := exec_keeps_unpacker hun h
  obtain ⟨hin, hidles⟩ := exec_keeps_host h
  exact ⟨hacc, hwbits, hvec, hpos, hrbits, exec_width h, hin, hidles,
    fun hc => exec_draws hc (fun hu => by simp [hun] at hu) h⟩

/-- RNEW is the one command that writes the word register, and it writes its operand (R15, R87). -/
theorem eq_rnew_of_bitVec_ne (h : exec i s = .next t) (hne : t.bitVec ≠ s.bitVec) : i = .rnew t.bitVec := by
  cases hun : isUnpackerCommand i with
  | false =>
    obtain ⟨hvec, -, -⟩ := exec_keeps_unpacker hun h
    exact absurd hvec hne
  | true =>
    obtain ⟨v, rfl⟩ | ⟨c, rfl⟩ := isUnpackerCommand_iff.mp hun
    · obtain rfl := exec_rnew_eq_next.mp h
      rfl
    · exact absurd (exec_read_keeps_bitVec h) hne

/-- Settles O29: an edge without a command or reset keeps all registers, a reset edge leaves 0, and an accepted command
that changed a register of a unit is one of the unit's. -/
theorem registersHaveFewWriters : Obligations.RegistersHaveFewWriters := by
  intro s t h
  obtain ⟨hr, rfl⟩ | ⟨ha, hx⟩ | ⟨-, -, rfl⟩ := step_cases h
  · exact ⟨fun _ => .inl ⟨hr, rfl⟩, fun _ => .inl ⟨hr, rfl⟩, fun _ => .inl ⟨hr, rfl⟩⟩
  · refine ⟨fun hne => .inr ⟨ha, ?_⟩, fun hne => .inr ⟨ha, eq_rnew_of_bitVec_ne hx hne⟩, fun hne => .inr ⟨ha, ?_⟩⟩
    · by_contra hno
      have hpk := Bool.eq_false_iff.mpr (mt isPackerCommand_iff.mp hno)
      obtain ⟨hacc, -⟩ := exec_keeps_packer hpk hx
      exact hne hacc
    · by_contra hno
      have hun := Bool.eq_false_iff.mpr (mt isUnpackerCommand_iff.mp hno)
      obtain ⟨-, hpos, -⟩ := exec_keeps_unpacker hun hx
      exact hne hpos
  · exact ⟨fun hne => absurd rfl hne, fun hne => absurd rfl hne, fun hne => absurd rfl hne⟩

end Sys2Proof.Machine
end

section
/-!
PROOFS. The ghost counters, said once for all commands (10_state.md R19 to R21): each counts its unit's bits and is
cleared by the unit's own re-initialisation. From these, that misuse lasts and that a sequence in contract stays
within the word.
-/

namespace Sys2Proof.Machine

variable {i : Instr} {s t : State}

/-- `wbits` after a command, from `wbits` before it (R21). -/
def wbitsAfter (i : Instr) (n : Nat) : Nat :=
  match i with
  | .wnew => 0
  | .finish => 0
  | .write c _ => n + c.toNat
  | _ => n

/-- `rbits` after a command, from `rbits` before it (R21). -/
def rbitsAfter (i : Instr) (n : Nat) : Nat :=
  match i with
  | .rnew _ => 0
  | .read c => n + c.toNat
  | _ => n

/-- The packer's counter follows the rule, in contract or out of it. -/
theorem exec_wbits (h : exec i s = .next t) : t.wbits = wbitsAfter i s.wbits := by
  cases i with
  | wnew | finish => cases h; rfl
  | write count value => obtain ⟨-, rfl⟩ | ⟨-, rfl⟩ := execWrite_cases h <;> rfl
  | bitsize | mask | rnew | read | reserved7 =>
    obtain ⟨-, hbits⟩ := exec_keeps_packer rfl h
    exact hbits

/-- The unpacker's counter follows the rule, in contract or out of it. -/
theorem exec_rbits (h : exec i s = .next t) : t.rbits = rbitsAfter i s.rbits := by
  cases i with
  | rnew => cases h; rfl
  | read count => obtain ⟨-, _, -, rfl⟩ | ⟨-, rfl⟩ := execRead_cases h <;> rfl
  | bitsize | mask | wnew | write | finish | reserved7 =>
    obtain ⟨-, -, hbits⟩ := exec_keeps_unpacker rfl h
    exact hbits

theorem le_wbitsAfter (hw : i ≠ .wnew) (hf : i ≠ .finish) (n : Nat) : n ≤ wbitsAfter i n := by
  cases i with
  | wnew => exact absurd rfl hw
  | finish => exact absurd rfl hf
  | write count value => exact Nat.le_add_right n _
  | bitsize | mask | rnew | read | reserved7 => exact le_rfl

theorem le_rbitsAfter (hr : ∀ v, i ≠ .rnew v) (n : Nat) : n ≤ rbitsAfter i n := by
  cases i with
  | rnew v => exact absurd rfl (hr v)
  | read count => exact Nat.le_add_right n _
  | bitsize | mask | wnew | write | finish | reserved7 => exact le_rfl

/-- Past W bits no WRITE is in contract, a zero-width one included (R80). -/
theorem writeInContract_eq_false (h : s.width.bits < s.wbits) (c : Count) : writeInContract c s = false :=
  Bool.eq_false_iff.mpr fun hc => by have := writeInContract_iff.mp hc; omega

/-- Past W bits no READ is in contract, a zero-width one included (R89). -/
theorem readInContract_eq_false (h : s.width.bits < s.rbits) (c : Count) : readInContract c s = false :=
  Bool.eq_false_iff.mpr fun hc => by have := readInContract_iff.mp hc; omega

/-- A packer past W bits stays so through every command but its two re-initialisations (R21). -/
theorem wbits_stays_past (hs : s.width.bits < s.wbits) (hw : i ≠ .wnew) (hf : i ≠ .finish)
    (h : exec i s = .next t) : t.width.bits < t.wbits := by
  rw [exec_width h, exec_wbits h]
  exact hs.trans_le (le_wbitsAfter hw hf s.wbits)

/-- An unpacker past W bits stays so through every command but RNEW (R21). -/
theorem rbits_stays_past (hs : s.width.bits < s.rbits) (hr : ∀ v, i ≠ .rnew v) (h : exec i s = .next t) :
    t.width.bits < t.rbits := by
  rw [exec_width h, exec_rbits h]
  exact hs.trans_le (le_rbitsAfter hr s.rbits)

/-- Settles O42: the rule is `exec_wbits` and `exec_rbits`, misuse lasts by `wbits_stays_past` and `rbits_stays_past`,
and a reset edge leaves both counters 0. -/
theorem ghostCountersFollowTheCommands : Obligations.GhostCountersFollowTheCommands := by
  refine ⟨fun i s t h => ⟨?_, ?_, fun hs hw hf => ?_, fun hs hr => ?_⟩, fun s t hr h => ?_⟩
  · rw [exec_wbits h]
    cases i <;> rfl
  · rw [exec_rbits h]
    cases i <;> rfl
  · have ht := wbits_stays_past hs hw hf h
    exact ⟨ht, writeInContract_eq_false ht⟩
  · have ht := rbits_stays_past hs hr h
    exact ⟨ht, readInContract_eq_false ht⟩
  · rw [step_of_rst hr] at h
    cases h
    exact ⟨rfl, rfl⟩

/-- Both ghost counters are within the word: neither unit is past its end (R19). -/
def State.countersWithin (s : State) : Prop :=
  s.wbits ≤ s.width.bits ∧ s.rbits ≤ s.width.bits

/-- The contract of WRITE and READ is exactly that the counter stays within the word (R80, R89). -/
theorem exec_keeps_countersWithin (hc : inContract i s = true) (hs : s.countersWithin) (h : exec i s = .next t) :
    t.countersWithin := by
  obtain ⟨hw, hr⟩ := hs
  rw [State.countersWithin, exec_width h, exec_wbits h, exec_rbits h]
  cases i with
  | write count value => exact ⟨writeInContract_iff.mp hc, hr⟩
  | read count => exact ⟨hw, readInContract_iff.mp hc⟩
  | wnew | finish => exact ⟨Nat.zero_le _, hr⟩
  | rnew => exact ⟨hw, Nat.zero_le _⟩
  | bitsize | mask | reserved7 => exact ⟨hw, hr⟩

end Sys2Proof.Machine
end

section
/-!
PROOFS. The invariant of 10_state.md R19, clause by clause: every well-formed command keeps the words within W bits,
and every command keeps `acc` below 2^wbits and the cursor at its ghost counter, in contract or out of it. From these,
that every step keeps it.
-/

namespace Sys2Proof.Machine

variable {i : Instr} {s t : State}

theorem exec_keeps_fits_acc (hs : Word.fits s.width s.acc) (h : exec i s = .next t) : Word.fits s.width t.acc := by
  cases i with
  | wnew | finish => cases h; exact fits_zero _
  | write count value =>
    obtain ⟨hc, rfl⟩ | ⟨-, rfl⟩ := execWrite_cases h
    · have hle := writeInContract_iff.mp hc
      exact fits_merged s.width s.acc value (by omega)
    · exact fits_anyWord _ _
  | bitsize | mask | rnew | read | reserved7 => rwa [(exec_keeps_packer rfl h).1]

/-- The one new word the unpacker takes is RNEW's operand, which is W bits wide (R51). -/
theorem exec_keeps_fits_bitVec (hwf : i.wellFormed s.width = true) (hs : Word.fits s.width s.bitVec)
    (h : exec i s = .next t) : Word.fits s.width t.bitVec := by
  cases i with
  | rnew value =>
    obtain rfl := exec_rnew_eq_next.mp h
    exact of_decide_eq_true hwf
  | read count => rwa [exec_read_keeps_bitVec h]
  | bitsize | mask | wnew | write | finish | reserved7 => rwa [(exec_keeps_unpacker rfl h).1]

/-- Every response is made of W-bit words: the width, a mask, the accumulator, a free value or 0. -/
theorem exec_fits_rsp (hacc : Word.fits s.width s.acc) (h : exec i s = .next t) :
    ∃ v, t.rsp = some v ∧ Word.fits s.width v := by
  cases i with
  | bitsize => cases h; exact ⟨_, rfl, fits_widthWord _⟩
  | mask n =>
    obtain ⟨hc, rfl⟩ | ⟨-, rfl⟩ := execMask_cases h
    · exact ⟨_, rfl, fits_nmask s.width (maskInContract_iff.mp hc)⟩
    · exact ⟨_, rfl, fits_anyWord _ _⟩
  | read count =>
    obtain ⟨hc, shift, -, rfl⟩ | ⟨-, rfl⟩ := execRead_cases h
    · have hle := readInContract_iff.mp hc
      exact ⟨_, rfl, fits_and_nmask s.width _ (by omega)⟩
    · exact ⟨_, rfl, fits_anyWord _ _⟩
  | finish => cases h; exact ⟨_, rfl, hacc⟩
  | wnew | write | rnew | reserved7 => exact ⟨0, rsp_of_silent (by simp) h, fits_zero _⟩

theorem exec_keeps_wordsFit (hwf : i.wellFormed s.width = true) (hs : s.wordsFit) (h : exec i s = .next t) :
    t.wordsFit := by
  obtain ⟨hacc, hvec, -⟩ := hs
  obtain ⟨v, hrsp, hv⟩ := exec_fits_rsp hacc h
  rw [State.wordsFit, exec_width h]
  refine ⟨exec_keeps_fits_acc hacc h, exec_keeps_fits_bitVec hwf hvec h, fun v' hv' => ?_⟩
  rw [hrsp] at hv'
  cases hv'
  exact hv

/-- A WRITE in contract puts its field below the old bits; one out of contract leaves the packer past W bits, of which
the clause says nothing. -/
theorem exec_keeps_packerClean (hs : s.packerClean) (h : exec i s = .next t) : t.packerClean := by
  cases i with
  | wnew => exact packerClean_of_packerClear (packerClear_of_exec_wnew h)
  | finish => exact packerClean_of_packerClear (packerClear_of_exec_finish h)
  | write count value =>
    intro hle
    rw [exec_width h, exec_wbits h] at hle
    have hle : s.wbits + count.toNat ≤ s.width.bits := hle
    rw [exec_write_of_le hle] at h
    cases h
    exact merged_lt s.width s.acc value (hs (by omega)) hle
  | bitsize | mask | rnew | read | reserved7 =>
    obtain ⟨hacc, hwbits⟩ := exec_keeps_packer rfl h
    rwa [State.packerClean, exec_width h, hacc, hwbits]

/-- A READ in contract moves the cursor and its ghost counter alike; one out of contract leaves the unpacker past W
bits, of which the clause says nothing. -/
theorem exec_keeps_cursorTrue (hs : s.cursorTrue) (h : exec i s = .next t) : t.cursorTrue := by
  cases i with
  | rnew value =>
    obtain rfl := exec_rnew_eq_next.mp h
    exact fun _ => rfl
  | read count =>
    intro hle
    rw [exec_width h, exec_rbits h] at hle
    have hle : s.rbits + count.toNat ≤ s.width.bits := hle
    have hpos : s.pos.toNat = s.rbits := hs (by omega)
    rw [exec_read_of_le hle hpos] at h
    cases h
    have hadd : (s.pos + count).toNat = s.pos.toNat + count.toNat := toNat_add_count (w := s.width) (by omega)
    rw [respond_pos, setCursor_pos, hadd, hpos]
    rfl
  | bitsize | mask | wnew | write | finish | reserved7 =>
    obtain ⟨-, hpos, hrbits⟩ := exec_keeps_unpacker rfl h
    rwa [State.cursorTrue, exec_width h, hpos, hrbits]

theorem exec_keeps_inv (hwf : i.wellFormed s.width = true) (hs : s.inv) (h : exec i s = .next t) : t.inv := by
  obtain ⟨hwords, hclean, hcursor⟩ := hs
  exact ⟨exec_keeps_wordsFit hwf hwords h, exec_keeps_packerClean hclean h, exec_keeps_cursorTrue hcursor h⟩

/-- An edge without a command keeps every register and empties the response stage (R31, R33). -/
theorem inv_idleEdge (hs : s.inv) : (idleEdge (pastEdge s)).inv := by
  obtain ⟨⟨hacc, hvec, -⟩, hclean, hcursor⟩ := hs
  exact ⟨⟨hacc, hvec, fun _ h => nomatch h⟩, hclean, hcursor⟩

/-- Settles O38: a reset edge leaves the reset values (`inv_resetEdge`), the ports give only well-formed commands, which
keep the invariant (`exec_keeps_inv`), and an edge without a command changes nothing it reads (`inv_idleEdge`). -/
theorem everyStepKeepsTheInvariant : Obligations.EveryStepKeepsTheInvariant := by
  intro s t hs h
  obtain ⟨-, rfl⟩ | ⟨-, hx⟩ | ⟨-, -, rfl⟩ := step_cases h
  · exact inv_resetEdge _
  · have hwf := decodeFields_wellFormed (portCommand_data_fits s.width (edgeInputs s).cmd)
    exact exec_keeps_inv (s := pastEdge s) hwf hs hx
  · exact inv_idleEdge hs

/-- Settles O39: `inv_resetAt`, for every width. -/
theorem resetMeetsTheInvariant : Obligations.ResetMeetsTheInvariant := inv_resetAt

end Sys2Proof.Machine
end

section
/-!
PROOFS. Command sequences (20_memory.md R34, R43): one command and then the rest, every sequence runs, two in a row
compose, and what each command of a sequence keeps the sequence keeps. From these, that misuse lasts until the unit is
re-initialised.
-/

namespace Sys2Proof.Machine

variable {i : Instr} {p q : List Instr} {s t u : State} {v : Word} {rs vs : List Word}

/-- A sequence runs its first command, and then the others from the state that one left (R34). -/
theorem runCommands_cons (h : exec i s = .next t) (hv : t.rsp = some v) (hq : runCommands q t = some (u, vs)) :
    runCommands (i :: q) s = some (u, v :: vs) := by
  simp [runCommands, h, hv, hq]

theorem runCommands_single (h : exec i s = .next t) (hv : t.rsp = some v) : runCommands [i] s = some (t, [v]) :=
  runCommands_cons h hv rfl

/-- Every sequence runs, whatever the state, and answers once for each command (R34, R46). -/
theorem runCommands_total (p : List Instr) (s : State) :
    ∃ t rs, runCommands p s = some (t, rs) ∧ rs.length = p.length := by
  induction p generalizing s with
  | nil => exact ⟨s, [], rfl, rfl⟩
  | cons i q ih =>
    obtain ⟨t, v, hx, hv⟩ := exec_responds i s
    obtain ⟨u, vs, hq, hlen⟩ := ih t
    exact ⟨u, v :: vs, runCommands_cons hx hv hq, by simp [hlen]⟩

/-- The only way a sequence with a first command runs. -/
theorem runCommands_cons_inv (h : runCommands (i :: q) s = some (u, rs)) :
    ∃ t v vs, exec i s = .next t ∧ t.rsp = some v ∧ runCommands q t = some (u, vs) ∧ rs = v :: vs := by
  obtain ⟨t, v, hx, hv⟩ := exec_responds i s
  obtain ⟨u', vs, hq, -⟩ := runCommands_total q t
  rw [runCommands_cons hx hv hq] at h
  cases h
  exact ⟨t, v, vs, hx, hv, hq, rfl⟩

/-- Executing a sequence is executing its first part and then its second (R43). -/
theorem runCommands_append (hp : runCommands p s = some (t, rs)) (hq : runCommands q t = some (u, vs)) :
    runCommands (p ++ q) s = some (u, rs ++ vs) := by
  induction p generalizing s rs with
  | nil =>
    cases hp
    exact hq
  | cons i p ih =>
    obtain ⟨t', v, rs', hx, hv, hp', rfl⟩ := runCommands_cons_inv hp
    exact runCommands_cons hx hv (ih hp')

/-- What every command of a sequence keeps holds after the sequence. -/
theorem runCommands_keeps {P : State → Prop} (hkeep : ∀ i ∈ p, ∀ s t, P s → exec i s = .next t → P t) (hs : P s)
    (h : runCommands p s = some (t, rs)) : P t := by
  induction p generalizing s rs with
  | nil =>
    cases h
    exact hs
  | cons i q ih =>
    obtain ⟨t', -, vs, hx, -, hq, -⟩ := runCommands_cons_inv h
    exact ih (fun j hj => hkeep j (List.mem_cons_of_mem i hj)) (hkeep i List.mem_cons_self s t' hs hx) hq

/-- Settles O57: both parts run (`runCommands_total`), and they compose (`runCommands_append`). -/
theorem oneResponseForEachCommandInOrder : Obligations.OneResponseForEachCommandInOrder := by
  intro p q s
  obtain ⟨t, rs, hp, hrs⟩ := runCommands_total p s
  obtain ⟨u, vs, hq, hvs⟩ := runCommands_total q t
  exact ⟨t, u, rs, vs, hp, hq, runCommands_append hp hq, hrs, hvs⟩

/-- A packer past W bits, its accumulator a free value (R80). -/
def State.packerLost (s : State) : Prop :=
  s.width.bits < s.wbits ∧ ∃ d, s.acc = anyWord s.width d

/-- Of the packer's commands only WRITE is left, and past W bits it draws the accumulator anew. -/
theorem exec_keeps_packerLost (hw : i ≠ .wnew) (hf : i ≠ .finish) (hs : s.packerLost) (h : exec i s = .next t) :
    t.packerLost := by
  obtain ⟨hlt, d, hd⟩ := hs
  refine ⟨wbits_stays_past hlt hw hf h, ?_⟩
  cases i with
  | wnew => exact absurd rfl hw
  | finish => exact absurd rfl hf
  | write count value =>
    rw [exec_write_of_lt (hlt.trans_le (Nat.le_add_right _ _))] at h
    cases h
    exact ⟨s.draws, rfl⟩
  | bitsize | mask | rnew | read | reserved7 =>
    rw [exec_width h, (exec_keeps_packer rfl h).1]
    exact ⟨d, hd⟩

/-- Settles O12: the first WRITE draws (`exec_write_of_lt`), and the lost packer stays lost through every command but
WNEW and FINISH (`exec_keeps_packerLost`), whose FINISH answers what it holds. -/
theorem writePastTheWordDrawsTheAccumulator : Obligations.WritePastTheWordDrawsTheAccumulator := by
  intro count value s h
  have hfirst : (respond 0 (setPacker (anyWord s.width s.draws) (s.wbits + count.toNat) (drawn s))).packerLost :=
    ⟨h, s.draws, rfl⟩
  refine ⟨exec_write_of_lt h, fun cmds u rs hcmds hrun => ?_⟩
  obtain ⟨t, -, vs, hx, -, hrest, -⟩ := runCommands_cons_inv hrun
  rw [exec_write_of_lt h] at hx
  cases hx
  have hlost : u.packerLost := by
    refine runCommands_keeps (fun i hi s t => ?_) hfirst hrest
    obtain ⟨hw, hf⟩ := hcmds i hi
    exact exec_keeps_packerLost hw hf
  obtain ⟨hlt, d, hd⟩ := hlost
  refine ⟨hlt, writeInContract_eq_false hlt, d, hd, ?_⟩
  rw [exec_finish, hd]
  rfl

/-- An unpacker past W bits of the word x, its cursor a free value (R89). -/
def State.unpackerLost (x : Word) (s : State) : Prop :=
  s.width.bits < s.rbits ∧ s.bitVec = x ∧ ∃ d, s.pos = anyCursor d

/-- Of the unpacker's commands only READ is left, and past W bits it draws the cursor anew and keeps the word. -/
theorem exec_keeps_unpackerLost {x : Word} (hr : ∀ v, i ≠ .rnew v) (hs : s.unpackerLost x)
    (h : exec i s = .next t) : t.unpackerLost x := by
  obtain ⟨hlt, hx, d, hd⟩ := hs
  refine ⟨rbits_stays_past hlt hr h, ?_⟩
  cases i with
  | rnew v => exact absurd rfl (hr v)
  | read count =>
    rw [exec_read_of_lt (hlt.trans_le (Nat.le_add_right _ _))] at h
    cases h
    exact ⟨hx, s.draws, rfl⟩
  | bitsize | mask | wnew | write | finish | reserved7 =>
    obtain ⟨hvec, hpos, -⟩ := exec_keeps_unpacker rfl h
    exact ⟨hvec.trans hx, d, hpos.trans hd⟩

/-- Settles O16: the first READ draws (`exec_read_of_lt`), and the lost unpacker stays lost through every command but
RNEW (`exec_keeps_unpackerLost`). -/
theorem readPastTheWordDrawsResponseAndCursor : Obligations.ReadPastTheWordDrawsResponseAndCursor := by
  intro count s h
  have hfirst : (readUnspecified count s).unpackerLost s.bitVec := ⟨h, rfl, s.draws, rfl⟩
  refine ⟨exec_read_of_lt h, fun cmds u rs hcmds hrun => ?_⟩
  obtain ⟨t, -, vs, hx, -, hrest, -⟩ := runCommands_cons_inv hrun
  rw [exec_read_of_lt h] at hx
  cases hx
  have hlost : u.unpackerLost s.bitVec :=
    runCommands_keeps (fun i hi _ _ => exec_keeps_unpackerLost (hcmds i hi)) hfirst hrest
  obtain ⟨hlt, hvec, hpos⟩ := hlost
  exact ⟨hlt, readInContract_eq_false hlt, hvec, hpos⟩

/-- A sequence is in contract when its first command is and the others are in the state that one leaves (R10). -/
theorem sequenceInContract_cons (hx : exec i s = .next t) :
    sequenceInContract (i :: q) s = (inContract i s && sequenceInContract q t) := by
  rw [sequenceInContract, hx]

/-- Settles O40: induction on the sequence; each command in contract keeps both counters within the word
(`exec_keeps_countersWithin`). -/
theorem contractKeepsCountersInTheWord : Obligations.ContractKeepsCountersInTheWord := by
  intro prog s hw hr hc
  have hs : s.countersWithin := ⟨hw, hr⟩
  clear hw hr
  induction prog generalizing s with
  | nil => exact ⟨s, [], rfl, hs⟩
  | cons i q ih =>
    obtain ⟨t, v, hx, hv⟩ := exec_responds i s
    rw [sequenceInContract_cons hx, Bool.and_eq_true] at hc
    obtain ⟨hci, hcq⟩ := hc
    obtain ⟨u, vs, hq, hu⟩ := ih t hcq (exec_keeps_countersWithin hci hs hx)
    exact ⟨u, v :: vs, runCommands_cons hx hv hq, hu⟩

end Sys2Proof.Machine
end

section
/-!
PROOFS. Edges at the ports (20_memory.md R31, R33, R37, 70_reset_and_hazards.md R120): the step that a presented command
word runs, what an edge does, silence, and the one cycle of a response.
-/

namespace Sys2Proof.Machine

variable {s t : State} {e : PortInputs} {rest : List PortInputs} {cmd : Nat} {c : CommandWord}

/-- The data field of a command word read from a number is a remainder mod 2^W (R48). -/
theorem commandOfNat_data_fits {w : Width} (h : commandOfNat w cmd = .ok c) : Word.fits w c.data := by
  unfold commandOfNat at h
  split at h
  · cases h
    exact (Nat.mod_le _ _).trans_lt (Nat.mod_lt _ (Nat.two_pow_pos _))
  · cases h

/-- The W data wires carry all of a data field that fits them (R29, R51). -/
theorem portCommand_of_fits {w : Width} (h : Word.fits w c.data) : portCommand w c = c := by
  rw [portCommand, and_allOnes_of_fits w h]

/-- The listed inputs stand at the ports, and are used up at the edge (log entry 4). -/
theorem step_accepted_of_cons (hin : s.inputs = e :: rest) (hr : e.rst = false) (hv : e.cmdValid = true) :
    step s = exec (decodeFields (portCommand s.width e.cmd)) { s with inputs := rest } := by
  have he := edgeInputs_cons s e rest hin
  have ha : accepts (edgeInputs s) = true := by rw [he]; exact (accepts_iff e).mpr ⟨hr, hv⟩
  rw [step_of_accepts ha, he, pastEdge, hin, List.tail_cons]

/-- Settles O30: what a command word decodes to is well formed, for its data field fits W bits, and so the ports carry
the word's fields as they are. -/
theorem stepRunsTheDecodedCommand : Obligations.StepRunsTheDecodedCommand := by
  intro s e rest cmd i hin hr hv hcmd hdec
  have hfits := commandOfNat_data_fits hcmd
  rw [decodeCommand_of_commandOfNat hcmd] at hdec
  cases hdec
  exact ⟨decodeFields_wellFormed hfits, by rw [step_accepted_of_cons hin hr hv, portCommand_of_fits hfits]⟩

theorem accepts_eq_false_of_not_valid (h : e.cmdValid = false) : accepts e = false := by
  rw [accepts, h, Bool.and_false, Bool.false_and]

/-- Settles O31: the three kinds of edge, `step_accepted_of_cons`, `step_of_idle` and `step_of_rst`, at inputs that the
list names. -/
theorem edgeAcceptsResetsOrHolds : Obligations.EdgeAcceptsResetsOrHolds := by
  intro s e rest hin
  have he := edgeInputs_cons s e rest hin
  refine ⟨step_accepted_of_cons hin, fun hr hv => ?_, fun hr => ?_⟩
  · have ha : accepts (edgeInputs s) = false := by rw [he, accepts_eq_false_of_not_valid hv]
    rw [step_of_idle (by rw [he, hr]) ha, pastEdge, hin]
    rfl
  · rw [step_of_rst (by rw [he, hr]), resetEdge_eq, pastEdge_inputs, hin]
    rfl

/-- With nothing listed an edge is one without a command (R37). -/
theorem step_of_silent (h : s.inputs = []) : step s = .next (idleEdge (pastEdge s)) := by
  have he := edgeInputs_nil s h
  exact step_of_idle (by rw [he]; rfl) (by rw [he]; rfl)

theorem stepN_succ (h : step s = .next t) (n : Nat) : stepN (n + 1) s = stepN n t := by
  rw [stepN, h]

/-- The registers, the counters, the width and the draw number of t are those of s: all but the response stage and the
host's side. -/
def State.sameRegisters (s t : State) : Prop :=
  t.acc = s.acc ∧ t.bitVec = s.bitVec ∧ t.pos = s.pos ∧ t.wbits = s.wbits ∧ t.rbits = s.rbits ∧ t.width = s.width ∧
    t.draws = s.draws

/-- Any number of silent edges is any number of edges without a command; after the first the stage is empty and stays
so (R33, R37). -/
theorem stepN_of_silent (n : Nat) {s : State} (h : s.inputs = []) :
    ∃ t, stepN n s = some t ∧ s.sameRegisters t ∧ (0 < n ∨ s.rsp = none → t.rsp = none) := by
  induction n generalizing s with
  | zero => exact ⟨s, rfl, ⟨rfl, rfl, rfl, rfl, rfl, rfl, rfl⟩, fun hn => hn.resolve_left (lt_irrefl 0)⟩
  | succ n ih =>
    have hin : (idleEdge (pastEdge s)).inputs = [] := by simp [idleEdge, h]
    obtain ⟨t, ht, hregs, hrsp⟩ := ih hin
    exact ⟨t, (stepN_succ (step_of_silent h) n).trans ht, hregs, fun _ => hrsp (.inr rfl)⟩

/-- Settles O33: `stepN_of_silent`, and an empty response stage is not valid on the port. -/
theorem silenceChangesNothing : Obligations.SilenceChangesNothing := by
  intro n s h
  obtain ⟨t, ht, ⟨hacc, hvec, hpos, hwbits, hrbits, hwidth, hdraws⟩, hrsp⟩ := stepN_of_silent n h
  exact ⟨t, ht, hacc, hvec, hpos, hwbits, hrbits, hwidth, hdraws, fun hn => rspValid_none t (hrsp (.inl hn))⟩

/-- Only an accepted command fills the response stage (R33). -/
theorem rsp_of_not_accepts (h : step s = .next t) (ha : accepts (edgeInputs s) = false) : t.rsp = none := by
  obtain ⟨-, rfl⟩ | ⟨ha', -⟩ | ⟨-, -, rfl⟩ := step_cases h
  · rfl
  · exact absurd ha' (Bool.eq_false_iff.mp ha)
  · rfl

theorem rsp_of_accepts (h : step s = .next t) (ha : accepts (edgeInputs s) = true) : ∃ v, t.rsp = some v := by
  obtain ⟨t', v, ht', hv⟩ := step_responds_of_accepts ha
  rw [h] at ht'
  cases ht'
  exact ⟨v, hv⟩

/-- What a coming reset edge hides: the response is not valid, and the wires carry a free value (R120, log entry 20). -/
theorem port_drops_rsp {v : Word} (hrsp : t.rsp = some v) (hr : (edgeInputs t).rst = true) :
    rspValid t = false ∧ rspData t = lostWord t.width t.idles :=
  ⟨by simp [rspValid, hr], by simp [rspData_some t hrsp, hr]⟩

/-- A host sees nothing after an edge that leaves no valid response (R46). -/
theorem observe_succ {n : Nat} {u : State} {vs : List Word} (h : step s = .next t)
    (hn : observe n t = some (u, vs)) :
    observe (n + 1) s = some (u, if rspValid t then rspData t :: vs else vs) := by
  rw [observe, h]
  simp only [hn]

/-- Two edges in a row without a valid response after them show a host nothing. -/
theorem observe_two_silent {u : State} (h : step s = .next t) (ht : rspValid t = false) (h' : step t = .next u)
    (hu : rspValid u = false) : observe 2 s = some (u, []) := by
  have hlast : observe 1 t = some (u, []) := by rw [observe_succ h' rfl, hu]; rfl
  rw [observe_succ h hlast, ht]
  rfl

/-- Settles O34: an accepted command fills the stage (`rsp_of_accepts`), which the port shows (`port_shows_rsp`) or the
coming reset drops (`port_drops_rsp`); any other edge empties it (`rsp_of_not_accepts`). -/
theorem responseStandsOneCycle : Obligations.ResponseStandsOneCycle := by
  intro s t h
  refine ⟨fun ha => ?_, fun ha => ?_⟩
  · obtain ⟨v, hv⟩ := rsp_of_accepts h ha
    refine ⟨v, hv, port_shows_rsp hv, fun hr => ?_⟩
    obtain ⟨hvalid, hdata⟩ := port_drops_rsp hv hr
    have hsilent : rspValid (resetEdge (pastEdge t)) = false := rspValid_none _ rfl
    exact ⟨hvalid, hdata, _, step_of_rst hr, hsilent, observe_two_silent h hvalid (step_of_rst hr) hsilent⟩
  · have hnone := rsp_of_not_accepts h ha
    exact ⟨rspValid_none t hnone, rspData_none t hnone⟩

end Sys2Proof.Machine
end

section
/-!
PROOFS. Several blocks under one clock (60_exceptions.md R113): one common edge is one edge of each block, and so are
n of them.
-/

namespace Sys2Proof.Machine

variable {n : Nat} {s t : State} {bs cs : List State}

/-- A common edge steps each block of the list by its own step. -/
theorem clockBlocks_pointwise (bs : List State) :
    ∃ cs, clockBlocks bs = some cs ∧ List.Forall₂ (fun s t => step s = .next t) bs cs := by
  induction bs with
  | nil => exact ⟨[], rfl, .nil⟩
  | cons s bs ih =>
    obtain ⟨t, ht⟩ := step_total s
    obtain ⟨cs, hcs, hall⟩ := ih
    exact ⟨t :: cs, by rw [clockBlocks, ht, hcs], .cons ht hall⟩

/-- Each block steps once, and then n times more. -/
theorem forall₂_stepN_succ (hstep : List.Forall₂ (fun s t => step s = .next t) bs cs) {ds : List State}
    (hrest : List.Forall₂ (fun s t => stepN n s = some t) cs ds) :
    List.Forall₂ (fun s t => stepN (n + 1) s = some t) bs ds := by
  induction hstep generalizing ds with
  | nil =>
    cases hrest
    exact .nil
  | cons h _ ih =>
    cases hrest with
    | cons hn htail => exact .cons ((stepN_succ h n).trans hn) (ih htail)

/-- n common edges step each block of the list n times by its own steps (R113). -/
theorem clockBlocksN_pointwise (n : Nat) (bs : List State) :
    ∃ cs, clockBlocksN n bs = some cs ∧ List.Forall₂ (fun s t => stepN n s = some t) bs cs := by
  induction n generalizing bs with
  | zero => exact ⟨bs, rfl, List.forall₂_same.mpr fun _ _ => rfl⟩
  | succ n ih =>
    obtain ⟨cs, hcs, hstep⟩ := clockBlocks_pointwise bs
    obtain ⟨ds, hds, hrest⟩ := ih cs
    exact ⟨ds, by rw [clockBlocksN, hcs]; exact hds, forall₂_stepN_succ hstep hrest⟩

/-- Settles O56: `clockBlocksN_pointwise`, read off at each position of the list. -/
theorem blocksAreIndependent : Obligations.BlocksAreIndependent := by
  intro n bs
  obtain ⟨cs, hcs, hall⟩ := clockBlocksN_pointwise n bs
  refine ⟨cs, hcs, hall.length_eq.symm, fun k s hk => ?_⟩
  obtain ⟨hlt, rfl⟩ := List.getElem?_eq_some_iff.mp hk
  have hlt' : k < cs.length := hall.length_eq ▸ hlt
  exact ⟨cs[k], hall.get hlt hlt', List.getElem?_eq_getElem hlt'⟩

end Sys2Proof.Machine
end

section
/-!
PROOFS. The clocked block refines `exec` folded over the accepted commands (20_memory.md R34): no command reads the
host's side or the response stage, so the block and the fold stay equal but for these, edge by edge.
-/

namespace Sys2Proof.Machine

variable {i : Instr} {s t u : State} {es : List PortInputs}

/-- s with another host's inputs, another number on the idle port and another response stage. -/
def State.withHost (s : State) (es : List PortInputs) (k : Nat) (r : Option Word) : State :=
  { s with inputs := es, idles := k, rsp := r }

/-- A command does the same whatever the host will drive and the response stage holds, and leaves the host's side as it
finds it (R22, R34). -/
theorem exec_withHost (h : exec i s = .next t) (es : List PortInputs) (k : Nat) (r : Option Word) :
    exec i (s.withHost es k r) = .next (t.withHost es k t.rsp) := by
  cases i with
  | mask n =>
    obtain ⟨hc, rfl⟩ | ⟨hc, rfl⟩ := execMask_cases h
    · exact if_pos hc
    · exact if_neg (Bool.eq_false_iff.mp hc)
  | write count value =>
    obtain ⟨hc, rfl⟩ | ⟨hc, rfl⟩ := execWrite_cases h
    · exact if_pos hc
    · exact if_neg (Bool.eq_false_iff.mp hc)
  | read count =>
    obtain ⟨hc, shift, hk, rfl⟩ | ⟨hno, rfl⟩ := execRead_cases h
    · exact exec_read_of_shift (s := s.withHost es k r) hc hk
    · exact exec_read_unspecified (s := s.withHost es k r) hno
  | bitsize | wnew | finish | rnew | reserved7 => cases h; rfl

/-- The two blocks are equal but for the host's side and the response stage. -/
def State.agrees (s u : State) : Prop :=
  ∃ es k r, u = s.withHost es k r

/-- The fold keeps pace with the block at an accepted command: equal blocks again, and the same response. -/
theorem exec_agrees (ha : s.agrees u) (h : exec i s = .next t) :
    ∃ t', exec i u = .next t' ∧ t.agrees t' ∧ t'.rsp = t.rsp := by
  obtain ⟨es, k, r, rfl⟩ := ha
  exact ⟨_, exec_withHost h es k r, ⟨es, k, t.rsp, rfl⟩, rfl⟩

/-- An edge uses up the first of the listed inputs, whatever it does with them (log entry 4). -/
theorem step_inputs (h : step s = .next t) : t.inputs = s.inputs.tail := by
  obtain ⟨-, rfl⟩ | ⟨-, hx⟩ | ⟨-, -, rfl⟩ := step_cases h
  · rfl
  · exact (exec_keeps_host hx).1
  · rfl

/-- One edge without a reset refines one element of the fold: an accepted command runs there too, with the response that
the port shows when no reset is coming, and any other edge shows nothing (R31, R33). -/
theorem step_refines (hr : (edgeInputs s).rst = false) (h : step s = .next t) (hquiet : (edgeInputs t).rst = false)
    (ha : s.agrees u) :
    (∃ t' v, accepts (edgeInputs s) = true ∧
      exec (decodeFields (portCommand s.width (edgeInputs s).cmd)) u = .next t' ∧ t'.rsp = some v ∧ t.agrees t' ∧
      rspValid t = true ∧ rspData t = v) ∨
    (accepts (edgeInputs s) = false ∧ t.agrees u ∧ rspValid t = false) := by
  have hpast : (pastEdge s).agrees u := ha
  obtain ⟨hr', -⟩ | ⟨hacc, hx⟩ | ⟨-, hacc, rfl⟩ := step_cases h
  · exact absurd hr' (Bool.eq_false_iff.mp hr)
  · obtain ⟨v, hv⟩ := rsp_of_accepts h hacc
    obtain ⟨t', hx', hagree, hrsp⟩ := exec_agrees hpast hx
    exact .inl ⟨t', v, hacc, hx', hrsp.trans hv, hagree, port_shows_rsp hv hquiet⟩
  · exact .inr ⟨hacc, ha, rspValid_none _ rfl⟩

/-- On inputs without a reset the block shows the responses of the fold and ends where the fold ends, from any two
states that agree. -/
theorem observe_refines (hin : s.inputs = es) (hno : ∀ e ∈ es, e.rst = false) (ha : s.agrees u) :
    ∃ t u' rs, observe es.length s = some (t, rs) ∧ runCommands (acceptedCommands s.width es) u = some (u', rs) ∧
      t.agrees u' ∧ t.inputs = [] := by
  induction es generalizing s u with
  | nil => exact ⟨s, u, [], rfl, rfl, ha, hin⟩
  | cons e rest ih =>
    have he : edgeInputs s = e := edgeInputs_cons s e rest hin
    have hrest : ∀ e ∈ rest, e.rst = false := fun e' he' => hno e' (List.mem_cons_of_mem e he')
    obtain ⟨t, hstep⟩ := step_total s
    have htin : t.inputs = rest := by rw [step_inputs hstep, hin, List.tail_cons]
    have hr : (edgeInputs s).rst = false := he ▸ hno e List.mem_cons_self
    rw [acceptedCommands]
    obtain ⟨t', v, hacc, hx, hv, hagree, hvalid, hdata⟩ | ⟨hacc, hagree, hvalid⟩ :=
      step_refines hr hstep (edgeInputs_rst_false t (htin ▸ hrest)) ha
    · obtain ⟨t₁, u₁, rs, hobs, hrun, hend⟩ := ih htin hrest hagree
      rw [step_width hstep] at hrun
      rw [he] at hacc hx
      refine ⟨t₁, u₁, v :: rs, ?_, ?_, hend⟩
      · rw [List.length_cons, observe_succ hstep hobs, if_pos hvalid, hdata]
      · rw [if_pos hacc]
        exact runCommands_cons hx hv hrun
    · obtain ⟨t₁, u₁, rs, hobs, hrun, hend⟩ := ih htin hrest hagree
      rw [step_width hstep] at hrun
      rw [he] at hacc
      refine ⟨t₁, u₁, rs, ?_, ?_, hend⟩
      · rw [List.length_cons, observe_succ hstep hobs, if_neg (Bool.eq_false_iff.mp hvalid)]
      · rwa [if_neg (Bool.eq_false_iff.mp hacc)]

/-- Settles O58: `observe_refines`, the fold starting from the block's own state. -/
theorem clockedBlockRefinesTheFold : Obligations.ClockedBlockRefinesTheFold := by
  intro s hno
  obtain ⟨t, u, rs, hobs, hrun, ⟨es, k, r, rfl⟩, hin⟩ := observe_refines rfl hno ⟨s.inputs, s.idles, s.rsp, rfl⟩
  exact ⟨t, _, rs, hobs, hrun, rfl, rfl, rfl, rfl, rfl, rfl, rfl, hin⟩

end Sys2Proof.Machine
end

section
/-!
PROOFS. Fields of width 0, of width W and of value 0, FINISH of a partly filled packer, the masking law, and fields
that split and merge (41_writer.md R81, R83, 42_reader.md R90, 43_properties.md R95, R104).
-/

namespace Sys2Proof.Machine

variable {s t : State} {count : Count} {value : Word}

/-- A zero-width WRITE in contract changes only the response, on a full packer too (R81). -/
theorem exec_write_zero (h : s.wbits ≤ s.width.bits) (hacc : Word.fits s.width s.acc) :
    exec (.write 0 value) s = .next { s with rsp := some 0 } := by
  have hnext : exec (.write 0 value) s =
      .next (respond 0 (setPacker (merged s.width s.acc value 0) s.wbits s)) := exec_write_of_le h
  rw [hnext, merged_zero s.width value hacc]
  rfl

/-- A field of W bits replaces all that the accumulator held (R81). -/
theorem merged_bits (w : Width) (x : Word) {value : Word} (h : Word.fits w value) :
    merged w x value w.bits = value := by
  simp [merged, shl_bits, and_allOnes_of_fits w h]

/-- Settles O19: `exec_write_zero`, a field of W bits by `merged_bits`, and a value of 0 by `toNat_merged_of_lt`. -/
theorem writeCornerCases : Obligations.WriteCornerCases := by
  refine ⟨fun _ _ => exec_write_zero, fun count value s hclear hcount hfits => ?_, fun count s h hclean => ?_⟩
  · obtain ⟨-, hbits⟩ := hclear
    rw [exec_write_of_le (by omega), hcount, merged_bits s.width s.acc hfits, hbits, Nat.zero_add]
    rfl
  · refine ⟨merged s.width s.acc 0 count.toNat, ?_, exec_write_of_le h⟩
    rw [toNat_merged_of_lt s.width s.acc 0 (hclean (by omega)) h]
    simp

/-- Settles O21: the bound on the accumulator is the packer's invariant (R19), with `wbits` = 0 a bound of 1; the second
FINISH finds the packer that the first one cleared. -/
theorem finishCornerCases : Obligations.FinishCornerCases := by
  refine ⟨fun s hclean h => ⟨hclean h, exec_finish s⟩, fun s hclean h => ?_, fun s => ?_⟩
  · have hlt := hclean (h ▸ Nat.zero_le _)
    rw [h, Nat.pow_zero] at hlt
    exact BitVec.eq_of_toNat_eq (Nat.lt_one_iff.mp hlt)
  · exact runCommands_cons (exec_finish s) rfl (runCommands_single (exec_finish _) rfl)

theorem extracted_zero (w : Width) (x : Word) (pos : Nat) : extracted w x pos 0 = 0 := by
  simp [extracted]

/-- A zero-width READ in contract changes only the response, at the end of the word too (R90). -/
theorem exec_read_zero (h : s.rbits ≤ s.width.bits) (hpos : s.pos.toNat = s.rbits) :
    exec (.read 0) s = .next { s with rsp := some 0 } := by
  have hnext : exec (.read 0) s =
      .next (respond (extracted s.width s.bitVec s.pos.toNat 0) (setCursor (s.pos + 0#8) s.rbits s)) :=
    exec_read_of_le h hpos
  rw [hnext, extracted_zero, BitVec.add_zero]
  rfl

/-- The response of a READ of n bits has no bit at position n or above (R90). -/
theorem extracted_lt (w : Width) (x : Word) (pos : Nat) {n : Nat} (h : n ≤ w.bits) :
    (extracted w x pos n).toNat < 2 ^ n :=
  and_nmask_lt w _ h

/-- A READ of W bits from the start shifts by 0 and masks with ALLONES (R90). -/
theorem extracted_bits (w : Width) {x : Word} (h : Word.fits w x) : extracted w x 0 w.bits = x := by
  rw [extracted, nmask_bits, Nat.sub_self, shr_zero, and_allOnes_of_fits w h]

/-- A READ that reaches the end shifts by 0 (R90). -/
theorem toNat_extracted_end (w : Width) (x : Word) {pos n : Nat} (h : pos + n = w.bits) :
    (extracted w x pos n).toNat = x.toNat % 2 ^ n := by
  have hshift : w.bits - n - pos = 0 := by omega
  rw [toNat_extracted w x pos (by omega), hshift, Nat.pow_zero, Nat.div_one]

/-- READ 1 answers the bit below the cursor (R90). -/
theorem toNat_extracted_one (w : Width) (x : Word) (pos : Nat) :
    (extracted w x pos 1).toNat = (x.getLsbD (w.bits - 1 - pos)).toNat := by
  rw [toNat_extracted w x pos w.bits_pos, Nat.pow_one, ← BitVec.testBit_toNat, Nat.toNat_testBit]

theorem extracted_of_zero (w : Width) (pos n : Nat) : extracted w 0 pos n = 0 := by
  simp [extracted, shr]

/-- Settles O20: `exec_read_zero`, and of any READ in contract (`exec_read_of_le`) the response's special cases, one
lemma each. -/
theorem readCornerCases : Obligations.ReadCornerCases := by
  refine ⟨fun _ => exec_read_zero, fun count s t h hpos hfits ht => ?_⟩
  have hcount : count.toNat ≤ s.width.bits := by omega
  have hadd : (s.pos + count).toNat = s.pos.toNat + count.toNat := toNat_add_count (w := s.width) (by omega)
  rw [exec_read_of_le h hpos] at ht
  cases ht
  refine ⟨extracted s.width s.bitVec s.pos.toNat count.toNat, rfl, extracted_lt _ _ _ hcount, fun hall => ?_,
    fun hend => ⟨toNat_extracted_end _ _ hend, fun c hc => ?_⟩, fun hone => ?_, fun hzero => ?_⟩
  · have hstart : s.pos.toNat = 0 := by omega
    refine ⟨by rw [hall, hstart, extracted_bits _ hfits], ?_⟩
    rw [respond_pos, setCursor_pos, hadd, hstart, hall, Nat.zero_add]
  · have hle : s.rbits + count.toNat + c.toNat ≤ s.width.bits := readInContract_iff.mp hc
    have hzero : c.toNat = 0 := by omega
    exact BitVec.eq_of_toNat_eq hzero
  · subst hone
    exact toNat_extracted_one _ _ _
  · rw [hzero, extracted_of_zero]

/-- The accumulator takes from the value its low n bits and nothing else (R95). -/
theorem merged_congr (w : Width) (x : Word) {n : Nat} {value value' : Word} (h : n ≤ w.bits)
    (heq : value'.toNat % 2 ^ n = value.toNat % 2 ^ n) : merged w x value' n = merged w x value n :=
  BitVec.eq_of_toNat_eq (by rw [toNat_merged w x value' h, toNat_merged w x value h, heq])

/-- Settles O51: the low bits of `toNat_merged` are the field, and the value enters by these alone (`merged_congr`). -/
theorem maskingLaw : Obligations.MaskingLaw := by
  intro count value s h
  have hcount : count.toNat ≤ s.width.bits := by omega
  refine ⟨⟨_, exec_write_of_le h, ?_⟩, fun value' heq => ?_⟩
  · rw [respond_acc, setPacker_acc, toNat_merged s.width s.acc value hcount, Nat.mul_add_mod, Nat.mod_mod]
  · rw [exec_write_of_le h, exec_write_of_le h, merged_congr s.width s.acc hcount heq]

/-- Bit i of the accumulator after a field of n bits: below n the value's, above it the old accumulator's. -/
theorem getLsbD_merged (w : Width) (x value : Word) {n : Nat} (h : n ≤ w.bits) (i : Nat) :
    (merged w x value n).getLsbD i =
      if i < n then value.getLsbD i else decide (i < w.bits) && x.getLsbD (i - n) := by
  rw [merged, BitVec.getLsbD_or, BitVec.getLsbD_and, getLsbD_shl, getLsbD_nmask w h]
  by_cases hi : i < n
  · simp [hi, Nat.not_le.mpr hi]
  · simp [hi, Nat.not_lt.mp hi]

/-- A field of m bits and then one of n bits are the one field of their joined value, m bits above n (R104). -/
theorem merged_merged (w : Width) (acc x y : Word) {m n : Nat} (h : m + n ≤ w.bits) :
    merged w (merged w acc x m) y n = merged w acc (merged w (merged w 0 x m) y n) (m + n) := by
  apply BitVec.eq_of_getLsbD_eq
  intro i _
  rw [getLsbD_merged w _ y (by omega), getLsbD_merged w acc x (by omega), getLsbD_merged w acc _ h,
    getLsbD_merged w _ y (by omega), getLsbD_merged w 0 x (by omega)]
  by_cases hy : i < n
  · have hboth : i < m + n := by omega
    simp [hy, hboth]
  · by_cases hx : i - n < m
    · have hboth : i < m + n := by omega
      simp [hy, hx, hboth]
    · have habove : ¬ i < m + n := by omega
      have hsub : i - n - m = i - (m + n) := by omega
      have hword : i < w.bits → i - n < w.bits := by omega
      by_cases hi : i < w.bits <;> simp [hy, hx, habove, hsub, hi, hword]

theorem toNat_joined (w : Width) (x y : Word) {m n : Nat} (h : m + n ≤ w.bits) :
    (merged w (merged w 0 x m) y n).toNat = x.toNat % 2 ^ m * 2 ^ n + y.toNat % 2 ^ n := by
  have hfirst : (merged w 0 x m).toNat = x.toNat % 2 ^ m := by
    rw [toNat_merged w 0 x (by omega)]
    simp
  have hlt : (merged w 0 x m).toNat < 2 ^ m := by rw [hfirst]; exact Nat.mod_lt _ (Nat.two_pow_pos m)
  rw [toNat_merged_of_lt w _ y hlt h, hfirst]

/-- Two slices side by side are the slice of both: of m and then n bits, above the lowest k bits of x (R92, R104). -/
theorem slice_mul_add_slice (x k m n : Nat) :
    x / 2 ^ (k + n) % 2 ^ m * 2 ^ n + x / 2 ^ k % 2 ^ n = x / 2 ^ k % 2 ^ (m + n) := by
  have hjoin : x / 2 ^ k % (2 ^ n * 2 ^ m) = x / 2 ^ k % 2 ^ n + 2 ^ n * (x / 2 ^ k / 2 ^ n % 2 ^ m) := Nat.mod_mul
  rw [Nat.pow_add 2 m n, Nat.mul_comm (2 ^ m), hjoin, Nat.pow_add, ← Nat.div_div_eq_div_mul, Nat.add_comm,
    Nat.mul_comm]

/-- A READ of m bits and then one of n bits answer the two parts of what one READ of m + n bits answers (R104). -/
theorem extracted_split (w : Width) (x : Word) {pos m n : Nat} (h : pos + m + n ≤ w.bits) :
    (extracted w x pos m).toNat * 2 ^ n + (extracted w x (pos + m) n).toNat = (extracted w x pos (m + n)).toNat := by
  rw [toNat_extracted w x pos (by omega), toNat_extracted w x (pos + m) (by omega),
    toNat_extracted w x pos (by omega), ← slice_mul_add_slice]
  have hhigh : w.bits - m - pos = w.bits - (m + n) - pos + n := by omega
  have hlow : w.bits - n - (pos + m) = w.bits - (m + n) - pos := by omega
  rw [hhigh, hlow]

/-- Two WRITEs within the word are the one WRITE of the joined field (R104). -/
theorem writes_merge (a b : Count) (x y : Word) (s : State) (h : s.wbits + a.toNat + b.toNat ≤ s.width.bits) :
    ∃ t v, v.toNat = x.toNat % 2 ^ a.toNat * 2 ^ b.toNat + y.toNat % 2 ^ b.toNat ∧
      runCommands [.write a x, .write b y] s = some (t, [0, 0]) ∧ runCommands [.write (a + b) v] s = some (t, [0]) := by
  have hadd : (a + b).toNat = a.toNat + b.toNat := toNat_add_count (w := s.width) (by omega)
  refine ⟨_, _, toNat_joined s.width x y (by omega),
    runCommands_cons (exec_write_of_le (by omega)) rfl (runCommands_single (exec_write_of_le h) rfl),
    runCommands_single ?_ rfl⟩
  rw [exec_write_of_le (by omega), hadd, ← merged_merged s.width s.acc x y (by omega), ← Nat.add_assoc]
  rfl

/-- Two READs within the word answer the parts of what one READ answers, and leave the same unpacker (R104). -/
theorem reads_merge (a b : Count) (s : State) (h : s.rbits + a.toNat + b.toNat ≤ s.width.bits)
    (hpos : s.pos.toNat = s.rbits) :
    ∃ t u r1 r2 r, runCommands [.read a, .read b] s = some (t, [r1, r2]) ∧
      runCommands [.read (a + b)] s = some (u, [r]) ∧
      r1.toNat * 2 ^ b.toNat + r2.toNat = r.toNat ∧ t.pos = u.pos ∧ t.rbits = u.rbits ∧ t.bitVec = u.bitVec := by
  have hadd : (a + b).toNat = a.toNat + b.toNat := toNat_add_count (w := s.width) (by omega)
  have hcursor : (s.pos + a).toNat = s.pos.toNat + a.toNat := toNat_add_count (w := s.width) (by omega)
  have hboth : s.rbits + (a + b).toNat ≤ s.width.bits := by omega
  refine ⟨_, _, _, _, _,
    runCommands_cons (exec_read_of_le (by omega) hpos) rfl
      (runCommands_single (exec_read_of_le h (hcursor.trans (by rw [hpos]; rfl))) rfl),
    runCommands_single (exec_read_of_le hboth hpos) rfl, ?_, ?_, ?_, rfl⟩
  · simp only [respond_pos, setCursor_pos, respond_bitVec, setCursor_bitVec, respond_width, setCursor_width, hadd,
      hcursor]
    exact extracted_split s.width s.bitVec (by omega)
  · exact BitVec.add_assoc s.pos a b
  · simp [hadd, Nat.add_assoc]

/-- Settles O50: `writes_merge`, `reads_merge`, and the zero-width commands at words that fit. -/
theorem fieldsSplitAndMerge : Obligations.FieldsSplitAndMerge := by
  refine ⟨writes_merge, reads_merge, fun s hinv => ?_⟩
  obtain ⟨⟨hacc, -, -⟩, -, hcursor⟩ := hinv
  exact ⟨fun h _ => exec_write_zero h hacc, fun h => exec_read_zero h (hcursor h)⟩

end Sys2Proof.Machine
end

section
/-!
PROOFS. Packings (41_writer.md R85, 43_properties.md R96, R99): the closed form of the packed word as a number, and that
the WRITEs of a packing compute it.
-/

namespace Sys2Proof.Machine

theorem fieldBits_nil : fieldBits [] = 0 := rfl

theorem fieldBits_cons (f : Field) (rest : List Field) : fieldBits (f :: rest) = f.1.toNat + fieldBits rest := rfl

theorem fieldBits_append (before after : List Field) :
    fieldBits (before ++ after) = fieldBits before + fieldBits after := by
  induction before with
  | nil => rw [List.nil_append, fieldBits_nil, Nat.zero_add]
  | cons f rest ih => rw [List.cons_append, fieldBits_cons, fieldBits_cons, ih, Nat.add_assoc]

theorem packedValue_cons (f : Field) (rest : List Field) :
    packedValue (f :: rest) = maskedField f * 2 ^ fieldBits rest + packedValue rest := rfl

theorem maskedField_lt (f : Field) : maskedField f < 2 ^ f.1.toNat :=
  Nat.mod_lt _ (Nat.two_pow_pos _)

/-- The packed word has no bit above its fields (R83, R96). -/
theorem packedValue_lt (fields : List Field) : packedValue fields < 2 ^ fieldBits fields := by
  induction fields with
  | nil => exact Nat.two_pow_pos 0
  | cons f rest ih => exact mul_add_lt_two_pow (maskedField_lt f) ih

/-- Fields packed after others go below them (R99). -/
theorem packedValue_append (before after : List Field) :
    packedValue (before ++ after) = packedValue before * 2 ^ fieldBits after + packedValue after := by
  induction before with
  | nil => simp [packedValue]
  | cons f rest ih =>
    rw [List.cons_append, packedValue_cons, packedValue_cons, ih, fieldBits_append, Nat.pow_add]
    ring

/-- What the WRITEs of a packing leave, within the word and from any accumulator below 2^wbits: the old bits above the
packed fields, and zero responses. -/
theorem runCommands_writeAll (fields : List Field) {s : State} (hacc : s.acc.toNat < 2 ^ s.wbits)
    (h : s.wbits + fieldBits fields ≤ s.width.bits) :
    ∃ t, runCommands (writeAll fields) s = some (t, List.replicate fields.length 0) ∧
      t.acc.toNat = s.acc.toNat * 2 ^ fieldBits fields + packedValue fields ∧
      t.wbits = s.wbits + fieldBits fields ∧ t.width = s.width := by
  induction fields generalizing s with
  | nil => exact ⟨s, rfl, by simp [fieldBits_nil, packedValue], rfl, rfl⟩
  | cons f rest ih =>
    obtain ⟨c, v⟩ := f
    replace h : s.wbits + (c.toNat + fieldBits rest) ≤ s.width.bits := h
    have hle : s.wbits + c.toNat ≤ s.width.bits := by omega
    have hx := exec_write_of_le (value := v) hle
    have hlt := merged_lt s.width s.acc v hacc hle
    obtain ⟨t, hrun, ht, hbits, hwidth⟩ :=
      ih (s := respond 0 (setPacker (merged s.width s.acc v c.toNat) (s.wbits + c.toNat) s)) hlt
        ((Nat.add_assoc _ _ _).trans_le h)
    refine ⟨t, runCommands_cons hx rfl hrun, ?_, hbits.trans (Nat.add_assoc _ _ _), hwidth⟩
    rw [ht, respond_acc, setPacker_acc, toNat_merged_of_lt s.width s.acc v hacc hle, fieldBits_cons, packedValue_cons,
      maskedField, Nat.pow_add]
    ring

/-- From a clear packer the WRITEs leave the packed word alone (R85). -/
theorem runCommands_writeAll_of_clear (fields : List Field) {s : State} (hclear : s.packerClear)
    (h : fieldBits fields ≤ s.width.bits) :
    ∃ t, runCommands (writeAll fields) s = some (t, List.replicate fields.length 0) ∧
      t.acc.toNat = packedValue fields ∧ t.wbits = fieldBits fields ∧ t.width = s.width := by
  obtain ⟨hacc, hbits⟩ := hclear
  have hzero : s.acc.toNat = 0 := by rw [hacc]; rfl
  obtain ⟨t, hrun, ht, htbits, hwidth⟩ := runCommands_writeAll fields (s := s)
    (by rw [hzero]; exact Nat.two_pow_pos _) (by rwa [hbits, Nat.zero_add])
  exact ⟨t, hrun, by rw [ht, hzero, Nat.zero_mul, Nat.zero_add], by rw [htbits, hbits, Nat.zero_add], hwidth⟩

/-- A whole packing, from any state: WNEW clears the packer, the WRITEs build the word, FINISH answers it and clears the
packer again (R96). -/
theorem runCommands_packing (fields : List Field) (s : State) (h : fieldBits fields ≤ s.width.bits) :
    ∃ t p, runCommands (packing fields) s = some (t, List.replicate (fields.length + 1) 0 ++ [p]) ∧
      p.toNat = packedValue fields ∧ t.packerClear ∧ t.width = s.width := by
  obtain ⟨t, hrun, hacc, -, hwidth⟩ :=
    runCommands_writeAll_of_clear fields (packerClear_of_exec_wnew (exec_wnew s)) h
  have hfinish : runCommands [.finish] t = some (respond t.acc (setPacker 0 0 t), [t.acc]) :=
    runCommands_single (exec_finish t) rfl
  exact ⟨_, t.acc, runCommands_cons (exec_wnew s) rfl (runCommands_append hrun hfinish), hacc,
    packerClear_respond_setPacker_zero _ _, hwidth⟩

/-- Settles O43: `runCommands_writeAll_of_clear` and `runCommands_packing`, the bound by `packedValue_lt`. -/
theorem packedWordClosedForm : Obligations.PackedWordClosedForm := by
  refine ⟨fun fields s hclear h => ?_, fun fields s h => ?_⟩
  · obtain ⟨t, hrun, hacc, hbits, -⟩ := runCommands_writeAll_of_clear fields hclear h
    exact ⟨t, _, hrun, hacc, hbits⟩
  · obtain ⟨t, p, hrun, hp, hclear, -⟩ := runCommands_packing fields s h
    exact ⟨t, _, p, hrun, hp, hp ▸ packedValue_lt fields, hclear⟩

/-- The bits of a packed word above the last fields are the fields before them, and below are the last fields (R99). -/
theorem packedValue_append_div_mod (before after : List Field) :
    packedValue (before ++ after) / 2 ^ fieldBits after = packedValue before ∧
    packedValue (before ++ after) % 2 ^ fieldBits after = packedValue after := by
  have hlt := packedValue_lt after
  rw [packedValue_append, Nat.mul_comm, Nat.mul_add_div (Nat.two_pow_pos _), Nat.mul_add_mod,
    Nat.div_eq_of_lt hlt, Nat.mod_eq_of_lt hlt]
  exact ⟨rfl, rfl⟩

/-- Settles O44: the accumulator is the packed value of the three parts, which `packedValue_append_div_mod` takes apart,
once above field k and once below it. -/
theorem eachFieldHasItsPlace : Obligations.EachFieldHasItsPlace := by
  intro before after f s t rs hclear h hrun
  obtain ⟨t', hrun', hacc, -⟩ := runCommands_writeAll_of_clear (before ++ f :: after) hclear h
  rw [hrun] at hrun'
  cases hrun'
  rw [hacc]
  obtain ⟨habove, -⟩ := packedValue_append_div_mod before (f :: after)
  have hassoc : before ++ f :: after = (before ++ [f]) ++ after := by simp
  obtain ⟨hthrough, hbelow⟩ := packedValue_append_div_mod (before ++ [f]) after
  rw [← hassoc] at hthrough hbelow
  refine ⟨?_, ?_, hbelow⟩
  · have hsingle : packedValue (before ++ [f]) % 2 ^ f.1.toNat = maskedField f := by
      simpa [fieldBits, totalBits, packedValue] using (packedValue_append_div_mod before [f]).2
    rw [hthrough, hsingle]
  · rw [Nat.add_comm, ← fieldBits_cons, habove]

end Sys2Proof.Machine
end

section
/-!
PROOFS. Unpackings (42_reader.md R92, R93): the READs of an unpacking answer the slices of the word in order, and the
slices put together are the word's top bits.
-/

namespace Sys2Proof.Machine

theorem slices_cons (w : Width) (x above : Nat) (c : Count) (rest : List Count) :
    slices w x above (c :: rest) =
      x / 2 ^ (w.bits - above - c.toNat) % 2 ^ c.toNat :: slices w x (above + c.toNat) rest := rfl

/-- What the READs of an unpacking answer within the word, from a cursor at its ghost counter: the slices from there on
(R92). -/
theorem runCommands_readAll (counts : List Count) {s : State} (hpos : s.pos.toNat = s.rbits)
    (h : s.rbits + totalBits counts ≤ s.width.bits) :
    ∃ t rs, runCommands (readAll counts) s = some (t, rs) ∧
      rs.map BitVec.toNat = slices s.width s.bitVec.toNat s.rbits counts ∧
      t.pos.toNat = s.rbits + totalBits counts ∧ t.bitVec = s.bitVec ∧ t.width = s.width := by
  induction counts generalizing s with
  | nil => exact ⟨s, [], rfl, rfl, hpos, rfl, rfl⟩
  | cons c rest ih =>
    rw [totalBits] at h
    have hx := exec_read_of_le (count := c) (by omega) hpos
    have hadd : (s.pos + c).toNat = s.pos.toNat + c.toNat := toNat_add_count (w := s.width) (by omega)
    obtain ⟨t, rs, hrun, hrs, htpos, hvec, hwidth⟩ :=
      ih (s := respond (extracted s.width s.bitVec s.pos.toNat c.toNat)
          (setCursor (s.pos + c) (s.rbits + c.toNat) s))
        (hadd.trans (by rw [hpos]; rfl)) ((Nat.add_assoc _ _ _).trans_le h)
    refine ⟨t, _ :: rs, runCommands_cons hx rfl hrun, ?_, htpos.trans (Nat.add_assoc _ _ _), hvec, hwidth⟩
    rw [List.map_cons, hrs, slices_cons, toNat_extracted s.width s.bitVec _ (by omega), hpos, Nat.sub_right_comm]
    rfl

/-- A whole unpacking, from any state: RNEW loads the word and the READs answer its slices (R92). -/
theorem runCommands_unpacking (x : Word) (counts : List Count) (s : State)
    (h : totalBits counts ≤ s.width.bits) :
    ∃ t rs, runCommands (unpacking x counts) s = some (t, 0 :: rs) ∧
      rs.map BitVec.toNat = slices s.width x.toNat 0 counts ∧
      t.pos.toNat = totalBits counts ∧ t.bitVec = x ∧ t.width = s.width := by
  have hx : exec (.rnew x) s = .next (respond 0 (setWord x (setCursor 0 0 s))) := exec_rnew_eq_next.mpr rfl
  obtain ⟨t, rs, hrun, hrs, hpos, hvec, hwidth⟩ := runCommands_readAll counts
    (s := respond 0 (setWord x (setCursor 0 0 s))) rfl ((Nat.zero_add _).trans_le h)
  exact ⟨t, rs, runCommands_cons hx rfl hrun, hrs, hpos.trans (Nat.zero_add _), hvec, hwidth⟩

/-- Settles O45: `runCommands_unpacking`. -/
theorem fieldsReadInOrder : Obligations.FieldsReadInOrder := by
  intro x counts s h
  obtain ⟨t, rs, hrun, hrs, hpos, hvec, -⟩ := runCommands_unpacking x counts s h
  exact ⟨t, rs, hrun, hrs, hpos, hvec⟩

theorem slices_length (w : Width) (x above : Nat) (counts : List Count) :
    (slices w x above counts).length = counts.length := by
  induction counts generalizing above with
  | nil => rfl
  | cons c rest ih => rw [slices_cons, List.length_cons, ih, List.length_cons]

/-- Responses that are slices have one entry for each count, so the fields they make have those counts. -/
theorem fieldBits_zip {w : Width} {x above : Nat} {counts : List Count} {rs : List Word}
    (h : rs.map BitVec.toNat = slices w x above counts) : fieldBits (counts.zip rs) = totalBits counts := by
  have hlen : rs.length = counts.length := by rw [← List.length_map, h, slices_length]
  rw [fieldBits, List.map_fst_zip hlen.ge]

/-- Slices put together, most significant first, are the bits they cover (R93): by `slice_mul_add_slice`, the first slice
and what the others cover. -/
theorem packedValue_zip {w : Width} {x above : Nat} {counts : List Count} {rs : List Word}
    (h : rs.map BitVec.toNat = slices w x above counts) (hle : above + totalBits counts ≤ w.bits) :
    packedValue (counts.zip rs) = x / 2 ^ (w.bits - above - totalBits counts) % 2 ^ totalBits counts := by
  induction counts generalizing above rs with
  | nil => simp [packedValue, totalBits, Nat.mod_one]
  | cons c rest ih =>
    cases rs with
    | nil => cases h
    | cons r rs =>
      rw [List.map_cons, slices_cons, List.cons.injEq] at h
      obtain ⟨hr, hrs⟩ := h
      rw [totalBits] at hle ⊢
      have hhigh : w.bits - above - c.toNat = w.bits - above - (c.toNat + totalBits rest) + totalBits rest := by omega
      have hlow : w.bits - (above + c.toNat) - totalBits rest = w.bits - above - (c.toNat + totalBits rest) := by omega
      rw [List.zip_cons_cons, packedValue_cons, maskedField, hr, Nat.mod_mod, fieldBits_zip hrs, ih hrs (by omega),
        hhigh, hlow, slice_mul_add_slice]

/-- The slices of a W-bit word from its top are its top bits (R93). -/
theorem packedValue_zip_of_fits {w : Width} {x : Word} {counts : List Count} {rs : List Word} (hfits : Word.fits w x)
    (h : rs.map BitVec.toNat = slices w x.toNat 0 counts) (hle : totalBits counts ≤ w.bits) :
    packedValue (counts.zip rs) = x.toNat / 2 ^ (w.bits - totalBits counts) := by
  have hlt : x.toNat / 2 ^ (w.bits - totalBits counts) < 2 ^ totalBits counts := by
    apply Nat.div_lt_of_lt_mul
    rwa [← Nat.pow_add, Nat.sub_add_cancel hle]
  rw [packedValue_zip h (by omega), Nat.sub_zero, Nat.mod_eq_of_lt hlt]

/-- Settles O48: the responses are slices (`runCommands_unpacking`), which `packedValue_zip_of_fits` puts together. -/
theorem responsesReassembleTheWord : Obligations.ResponsesReassembleTheWord := by
  intro x counts s hfits h
  obtain ⟨t, rs, hrun, hrs, -⟩ := runCommands_unpacking x counts s h
  have hvalue := packedValue_zip_of_fits hfits hrs h
  exact ⟨t, rs, hrun, hvalue, fun hall => by rw [hvalue, hall, Nat.sub_self, Nat.pow_zero, Nat.div_one]⟩

end Sys2Proof.Machine
end

section
/-!
PROOFS. The round trips (43_properties.md R97, R98, R103): the slices of a word that holds packed fields are the fields,
and the packed value of a word's slices is the word.
-/

namespace Sys2Proof.Machine

theorem packedValue_singleton (f : Field) : packedValue [f] = maskedField f := by
  simp [packedValue, fieldBits, totalBits]

/-- Of a word whose last k bits stand below packed fields, the slices from the fields' place on are the masked fields
(R97, R98). -/
theorem slices_of_packed (w : Width) (x k above : Nat) (fields : List Field)
    (hplace : above + fieldBits fields + k = w.bits) (hx : x / 2 ^ k % 2 ^ fieldBits fields = packedValue fields) :
    slices w x above (fields.map Prod.fst) = fields.map maskedField := by
  induction fields generalizing above with
  | nil => rfl
  | cons f rest ih =>
    rw [fieldBits_cons] at hplace hx
    obtain ⟨hhigh, hlow⟩ := packedValue_append_div_mod [f] rest
    rw [List.singleton_append, ← hx] at hhigh hlow
    have hshift : w.bits - above - f.1.toNat = k + fieldBits rest := by omega
    have hfield : x / 2 ^ (k + fieldBits rest) % 2 ^ f.1.toNat = maskedField f := by
      rw [Nat.pow_add, ← Nat.div_div_eq_div_mul, ← Nat.mod_mul_right_div_self, ← Nat.pow_add, Nat.add_comm, hhigh,
        packedValue_singleton]
    have hrest : x / 2 ^ k % 2 ^ fieldBits rest = packedValue rest := by
      rw [← hlow, Nat.mod_mod_of_dvd _ (Nat.pow_dvd_pow 2 (Nat.le_add_left _ _))]
    rw [List.map_cons, slices_cons, hshift, hfield, ih (above + f.1.toNat) (by omega) hrest, List.map_cons]

/-- The slices of the packed word itself, when the fields stand at its lowest bits. -/
theorem slices_packedValue (w : Width) (above : Nat) (fields : List Field) (h : above + fieldBits fields = w.bits) :
    slices w (packedValue fields) above (fields.map Prod.fst) = fields.map maskedField :=
  slices_of_packed w _ 0 above fields h (by rw [Nat.pow_zero, Nat.div_one, Nat.mod_eq_of_lt (packedValue_lt fields)])

/-- Settles O46: the packing answers the packed value, and with T = W the fields fill the word, so that its slices are
the masked fields (`slices_packedValue`). -/
theorem roundTripOfAFullWord : Obligations.RoundTripOfAFullWord := by
  intro fields s h
  obtain ⟨t, p, hpack, hp, -, hwidth⟩ := runCommands_packing fields s h.le
  obtain ⟨u, vs, hunpack, hvs, -⟩ := runCommands_unpacking p (fields.map Prod.fst) t (hwidth ▸ h.le)
  refine ⟨t, u, _, p, vs, hpack, hunpack, ?_⟩
  rw [hvs, hp, hwidth, slices_packedValue s.width 0 fields ((Nat.zero_add _).trans h)]

/-- W - T as a count: the padding that fills the word (R98). -/
def padding (w : Width) (fields : List Field) : Count :=
  BitVec.ofNat 8 (w.bits - fieldBits fields)

theorem toNat_padding (w : Width) (fields : List Field) : (padding w fields).toNat = w.bits - fieldBits fields := by
  have hw := w.bits_le
  rw [padding, BitVec.toNat_ofNat, Nat.mod_eq_of_lt (by omega)]

/-- A padding READ answers the zeros above the right-justified fields, and the fields follow (R98 a). -/
theorem unpacking_after_padding {fields : List Field} {p : Word} {t : State} (hp : p.toNat = packedValue fields)
    (h : fieldBits fields ≤ t.width.bits) :
    ∃ u vs, runCommands (unpacking p (padding t.width fields :: fields.map Prod.fst)) t = some (u, 0 :: 0 :: vs) ∧
      vs.map BitVec.toNat = fields.map maskedField := by
  have hpad := toNat_padding t.width fields
  have htotal : totalBits (padding t.width fields :: fields.map Prod.fst) ≤ t.width.bits := by
    rw [totalBits, hpad]
    exact (Nat.sub_add_cancel h).le
  obtain ⟨u, rs, hrun, hrs, -⟩ := runCommands_unpacking p _ t htotal
  cases rs with
  | nil => cases hrs
  | cons r vs =>
    rw [slices_cons, List.map_cons, List.cons.injEq, hpad, hp, Nat.sub_zero, Nat.sub_sub_self h,
      Nat.div_eq_of_lt (packedValue_lt fields), Nat.zero_mod] at hrs
    obtain ⟨hr, hvs⟩ := hrs
    obtain rfl : r = 0 := BitVec.eq_of_toNat_eq hr
    exact ⟨u, vs, hrun, hvs.trans (slices_packedValue t.width _ fields (by omega))⟩

/-- A packing that ends with a padding WRITE of zeros has its fields at the top of the word, where the READs begin
(R98 c). -/
theorem unpacking_of_padded_packing (fields : List Field) (s : State) (h : fieldBits fields ≤ s.width.bits) :
    ∃ t rs p u vs, runCommands (packing (fields ++ [(padding s.width fields, 0)])) s = some (t, rs ++ [p]) ∧
      runCommands (unpacking p (fields.map Prod.fst)) t = some (u, 0 :: vs) ∧
      vs.map BitVec.toNat = fields.map maskedField := by
  have hpad := toNat_padding s.width fields
  have hlast : fieldBits [(padding s.width fields, 0)] = s.width.bits - fieldBits fields := hpad
  obtain ⟨t, p, hpack, hp, -, hwidth⟩ := runCommands_packing (fields ++ [(padding s.width fields, 0)]) s
    (by rw [fieldBits_append, hlast]; omega)
  obtain ⟨u, vs, hunpack, hvs, -⟩ := runCommands_unpacking p (fields.map Prod.fst) t (hwidth ▸ h)
  obtain ⟨htop, -⟩ := packedValue_append_div_mod fields [(padding s.width fields, 0)]
  refine ⟨t, _, p, u, vs, hpack, hunpack, ?_⟩
  rw [hvs, hwidth, hp]
  refine slices_of_packed s.width _ (s.width.bits - fieldBits fields) 0 fields (by omega) ?_
  rw [← hlast, htop, Nat.mod_eq_of_lt (packedValue_lt fields)]

theorem map_toNat_injective {n : Nat} : Function.Injective (List.map (BitVec.toNat (w := n))) :=
  List.map_injective_iff.mpr fun _ _ => BitVec.eq_of_toNat_eq

/-- The spec's counterexample: the field (4, 0xA), packed alone into 8 bits and read back without padding, is 0 (R98). -/
theorem unpadded_counterexample (s : State) (h : s.width = .w8) :
    ∃ t u, runCommands (packing [(4, 0xA)]) s = some (t, [0, 0, 0x0A]) ∧
      runCommands (unpacking 0x0A [4]) t = some (u, [0, 0]) ∧ slices .w8 0x0A 0 [4, 4] = [0, 0xA] := by
  obtain ⟨t, p, hpack, hp, -, hwidth⟩ := runCommands_packing [(4, 0xA)] s (by rw [h]; decide)
  obtain rfl : p = 0x0A := BitVec.eq_of_toNat_eq hp
  rw [h] at hwidth
  obtain ⟨u, rs, hunpack, hrs, -⟩ := runCommands_unpacking 0x0A [4] t (by rw [hwidth]; decide)
  rw [hwidth] at hrs
  obtain rfl : rs = [0] := map_toNat_injective hrs
  exact ⟨t, u, hpack, hunpack, rfl⟩

/-- Settles O47: with T < W, `unpacking_after_padding`, the slices of `runCommands_unpacking`,
`unpacking_of_padded_packing`, and `unpadded_counterexample`. -/
theorem roundTripOfAPartlyFilledWord : Obligations.RoundTripOfAPartlyFilledWord := by
  refine ⟨fun fields s h => ?_, unpadded_counterexample⟩
  obtain ⟨t, p, hpack, hp, -, hwidth⟩ := runCommands_packing fields s h.le
  have hle : fieldBits fields ≤ t.width.bits := hwidth ▸ h.le
  have hpadded := unpacking_after_padding hp hle
  obtain ⟨u, vs, hunpack, hvs, -⟩ := runCommands_unpacking p (fields.map Prod.fst) t hle
  rw [hwidth] at hpadded hvs
  rw [hp] at hvs
  exact ⟨t, _, p, hpack, hpadded, ⟨u, vs, hunpack, hvs⟩, unpacking_of_padded_packing fields s h.le⟩

/-- Settles O49: the responses are slices that cover the word, so what they pack to is the word
(`packedValue_zip_of_fits`). -/
theorem inverseRoundTrip : Obligations.InverseRoundTrip := by
  intro x counts s hfits h
  obtain ⟨t, rs, hunpack, hrs, -, -, hwidth⟩ := runCommands_unpacking x counts s h.le
  have hbits : fieldBits (counts.zip rs) = s.width.bits := (fieldBits_zip hrs).trans h
  obtain ⟨u, p, hpack, hp, -⟩ := runCommands_packing (counts.zip rs) t (hwidth ▸ hbits.le)
  rw [packedValue_zip_of_fits hfits hrs h.le, h, Nat.sub_self, Nat.pow_zero, Nat.div_one] at hp
  obtain rfl : p = x := BitVec.eq_of_toNat_eq hp
  exact ⟨t, u, rs, _, hunpack, hpack⟩

end Sys2Proof.Machine
end

section
/-!
PROOFS. Independence of the units and of the free values (10_state.md R17, R18, 60_exceptions.md R115, 43_properties.md
R102): a unit's command depends on its own unit alone, and in contract not on the draw number. From these, that a
unit's commands among others answer as they do alone.
-/

namespace Sys2Proof.Machine

variable {i : Instr} {s s' t t' u : State} {prog : List Instr} {rs : List Word}

/-- Two blocks of one width with equal packers. -/
def State.samePacker (s s' : State) : Prop :=
  s.width = s'.width ∧ s.acc = s'.acc ∧ s.wbits = s'.wbits

/-- Two blocks of one width with equal unpackers. -/
def State.sameUnpacker (s s' : State) : Prop :=
  s.width = s'.width ∧ s.bitVec = s'.bitVec ∧ s.pos = s'.pos ∧ s.rbits = s'.rbits

/-- A packer command answers from the packer, and from the draw number where it is out of contract (R17). -/
theorem exec_packer_congr (hi : isPackerCommand i = true) (hsame : s.samePacker s')
    (hd : inContract i s = true ∨ s.draws = s'.draws) (h : exec i s = .next t) (h' : exec i s' = .next t') :
    t.rsp = t'.rsp ∧ t.samePacker t' := by
  obtain ⟨hw, hacc, hbits⟩ := hsame
  cases i with
  | wnew => cases h; cases h'; exact ⟨rfl, hw, rfl, rfl⟩
  | finish => cases h; cases h'; exact ⟨congrArg some hacc, hw, rfl, rfl⟩
  | write count value =>
    obtain hle | hlt := le_or_gt (s.wbits + count.toNat) s.width.bits
    · rw [exec_write_of_le hle] at h
      rw [exec_write_of_le (by rwa [← hw, ← hbits])] at h'
      cases h; cases h'
      exact ⟨rfl, hw, by simp [hw, hacc], by simp [hbits]⟩
    · have hdraws : s.draws = s'.draws := hd.resolve_left fun hc =>
        Nat.not_le.mpr hlt (writeInContract_iff.mp hc)
      rw [exec_write_of_lt hlt] at h
      rw [exec_write_of_lt (by rwa [← hw, ← hbits])] at h'
      cases h; cases h'
      exact ⟨rfl, hw, by simp [hw, hdraws], by simp [hbits]⟩
  | bitsize | mask | rnew | read | reserved7 => cases hi

/-- An unpacker command answers from the unpacker, and from the draw number where it is out of contract (R17). -/
theorem exec_unpacker_congr (hi : isUnpackerCommand i = true) (hsame : s.sameUnpacker s')
    (hd : inContract i s = true ∧ s.cursorTrue ∨ s.draws = s'.draws) (h : exec i s = .next t)
    (h' : exec i s' = .next t') : t.rsp = t'.rsp ∧ t.sameUnpacker t' := by
  obtain ⟨hw, hvec, hpos, hbits⟩ := hsame
  cases i with
  | rnew value => cases h; cases h'; exact ⟨rfl, hw, rfl, rfl, rfl⟩
  | read count =>
    have hcontract : readInContract count s' = readInContract count s := by simp [readInContract, hw, hbits]
    obtain ⟨hc, shift, hk, rfl⟩ | ⟨hno, rfl⟩ := execRead_cases h
    · rw [exec_read_of_shift (hcontract.trans hc) (by rwa [← hw, ← hpos])] at h'
      cases h'
      exact ⟨by simp [hw, hvec], hw, hvec, by simp [hpos], by simp [hbits]⟩
    · have hdraws : s.draws = s'.draws := hd.resolve_left fun ⟨hc, hcur⟩ =>
        hno.elim (Bool.eq_false_iff.mp · hc) (readShift_ne_none hc hcur)
      rw [exec_read_unspecified (by rwa [hcontract, ← hw, ← hpos])] at h'
      cases h'
      exact ⟨by simp [readUnspecified, hw, hdraws], hw, hvec, by simp [readUnspecified, hdraws],
        by simp [readUnspecified, hbits]⟩
  | bitsize | mask | wnew | write | finish | reserved7 => cases hi

/-- The commands of neither unit answer from the width, and MASK out of contract from the draw number (R17). -/
theorem exec_stateless_congr (hp : isPackerCommand i = false) (hu : isUnpackerCommand i = false)
    (hw : s.width = s'.width) (hd : s.draws = s'.draws) (h : exec i s = .next t) (h' : exec i s' = .next t') :
    t.rsp = t'.rsp := by
  cases i with
  | bitsize => cases h; cases h'; simp [hw]
  | reserved7 => cases h; cases h'; rfl
  | mask n =>
    obtain hle | hlt := le_or_gt n.toNat s.width.bits
    · rw [exec_mask_of_le hle] at h
      rw [exec_mask_of_le (hw ▸ hle)] at h'
      cases h; cases h'
      simp [hw]
    · rw [exec_mask_of_lt hlt] at h
      rw [exec_mask_of_lt (hw ▸ hlt)] at h'
      cases h; cases h'
      simp [hw, hd]
  | wnew | write | finish => cases hp
  | rnew | read => cases hu

/-- Settles O52: one congruence for each kind of command, at equal draw numbers. -/
theorem unitsSeeOnlyTheirOwnState : Obligations.UnitsSeeOnlyTheirOwnState := by
  intro i s s' t t' hw hd h h'
  refine ⟨fun hi hacc hbits => ?_, fun hi hvec hpos hbits => ?_, fun hp hu => exec_stateless_congr hp hu hw hd h h'⟩
  · obtain ⟨hrsp, -, htacc, htbits⟩ := exec_packer_congr hi ⟨hw, hacc, hbits⟩ (.inr hd) h h'
    exact ⟨hrsp, htacc, htbits⟩
  · obtain ⟨hrsp, -, htvec, htpos, htbits⟩ := exec_unpacker_congr hi ⟨hw, hvec, hpos, hbits⟩ (.inr hd) h h'
    exact ⟨hrsp, htvec, htpos, htbits⟩

/-- A unit's commands among others answer as they do alone: R relates the block that runs all of a sequence in contract to
the one that runs the picked commands; picked commands answer alike on related blocks, others keep them related. -/
theorem runCommands_filter {p : Instr → Bool} {R : State → State → Prop}
    (hown : ∀ i s s' t t', p i = true → inContract i s = true → R s s' → exec i s = .next t →
      exec i s' = .next t' → t.rsp = t'.rsp ∧ R t t')
    (hother : ∀ i s s' t, p i = false → R s s' → exec i s = .next t → R t s')
    (hR : R s s') (hc : sequenceInContract prog s = true) (hrun : runCommands prog s = some (t, rs)) :
    ∃ u, runCommands (prog.filter p) s' = some (u, pickResponses p prog rs) ∧ R t u := by
  induction prog generalizing s s' rs with
  | nil =>
    cases hrun
    exact ⟨s', rfl, hR⟩
  | cons i q ih =>
    obtain ⟨t₁, v, vs, hx, hv, hq, rfl⟩ := runCommands_cons_inv hrun
    rw [sequenceInContract_cons hx, Bool.and_eq_true] at hc
    obtain ⟨hci, hcq⟩ := hc
    rw [pickResponses]
    cases hp : p i with
    | true =>
      obtain ⟨t₁', v', hx', hv'⟩ := exec_responds i s'
      obtain ⟨hrsp, hR'⟩ := hown i s s' t₁ t₁' hp hci hR hx hx'
      rw [hv] at hrsp
      obtain ⟨u, hu, hRu⟩ := ih hR' hcq hq
      rw [List.filter_cons_of_pos hp]
      exact ⟨u, runCommands_cons hx' hrsp.symm hu, hRu⟩
    | false =>
      obtain ⟨u, hu, hRu⟩ := ih (hother i s s' t₁ hp hR hx) hcq hq
      rw [List.filter_cons_of_neg (Bool.eq_false_iff.mp hp)]
      exact ⟨u, hu, hRu⟩

theorem samePacker_of_other (hi : isPackerCommand i = false) (hsame : s.samePacker s') (h : exec i s = .next t) :
    t.samePacker s' := by
  obtain ⟨hacc, hbits⟩ := exec_keeps_packer hi h
  rwa [State.samePacker, exec_width h, hacc, hbits]

theorem sameUnpacker_of_other (hi : isUnpackerCommand i = false) (hsame : s.sameUnpacker s')
    (h : exec i s = .next t) : t.sameUnpacker s' := by
  obtain ⟨hvec, hpos, hbits⟩ := exec_keeps_unpacker hi h
  rwa [State.sameUnpacker, exec_width h, hvec, hpos, hbits]

/-- The packer commands of a sequence in contract, issued alone to a block with an equal packer (R18). -/
theorem runCommands_filter_packer (hsame : s.samePacker s') (hc : sequenceInContract prog s = true)
    (hrun : runCommands prog s = some (t, rs)) :
    ∃ u, runCommands (prog.filter isPackerCommand) s' = some (u, pickResponses isPackerCommand prog rs) ∧
      t.samePacker u :=
  runCommands_filter (fun _ _ _ _ _ hp hci hs => exec_packer_congr hp hs (.inl hci))
    (fun _ _ _ _ => samePacker_of_other) hsame hc hrun

/-- The unpacker commands of a sequence in contract, issued alone to a block with an equal unpacker; the cursor is its
ghost counter throughout (R18, R19). -/
theorem runCommands_filter_unpacker (hcur : s.cursorTrue) (hsame : s.sameUnpacker s')
    (hc : sequenceInContract prog s = true) (hrun : runCommands prog s = some (t, rs)) :
    ∃ u, runCommands (prog.filter isUnpackerCommand) s' = some (u, pickResponses isUnpackerCommand prog rs) ∧
      t.sameUnpacker u := by
  obtain ⟨u, hu, -, hend⟩ := runCommands_filter (R := fun s s' => s.cursorTrue ∧ s.sameUnpacker s')
    (fun i s s' t t' hp hci ⟨hcur, hs⟩ hx hx' => by
      obtain ⟨hrsp, hsame⟩ := exec_unpacker_congr hp hs (.inl ⟨hci, hcur⟩) hx hx'
      exact ⟨hrsp, exec_keeps_cursorTrue hcur hx, hsame⟩)
    (fun i s s' t hp ⟨hcur, hs⟩ hx => ⟨exec_keeps_cursorTrue hcur hx, sameUnpacker_of_other hp hs hx⟩)
    ⟨hcur, hsame⟩ hc hrun
  exact ⟨u, hu, hend⟩

/-- Settles O53: the sequence runs, and each unit's commands alone, from the same state, keep pace with it
(`runCommands_filter_packer`, `runCommands_filter_unpacker`). -/
theorem interleavingChangesNoResponse : Obligations.InterleavingChangesNoResponse := by
  intro prog s hcur hc
  obtain ⟨t, rs, hrun, -⟩ := runCommands_total prog s
  obtain ⟨u, hu, -, hacc, hwbits⟩ := runCommands_filter_packer (s' := s) ⟨rfl, rfl, rfl⟩ hc hrun
  obtain ⟨u', hu', -, hvec, hpos, hrbits⟩ := runCommands_filter_unpacker (s' := s) hcur ⟨rfl, rfl, rfl, rfl⟩ hc hrun
  exact ⟨t, rs, hrun, ⟨u, hu, hacc.symm, hwbits.symm⟩, u', hu', hvec.symm, hpos.symm, hrbits.symm⟩

/-- Picking all commands picks all responses. -/
theorem pickResponses_of_forall {p : Instr → Bool} (hp : ∀ i ∈ prog, p i = true) (hlen : rs.length = prog.length) :
    pickResponses p prog rs = rs := by
  induction prog generalizing rs with
  | nil => rw [List.length_eq_zero_iff.mp hlen]; rfl
  | cons i q ih =>
    cases rs with
    | nil => cases hlen
    | cons v vs =>
      rw [pickResponses, if_pos (hp i List.mem_cons_self),
        ih (fun j hj => hp j (List.mem_cons_of_mem i hj)) (Nat.succ.inj hlen)]

/-- Settles O55: WNEW makes the packers of any two blocks of one width equal, and RNEW the unpackers, so the commands
after it, all of one unit, answer alike. -/
theorem reinitialisedUnitsForgetMisuse : Obligations.ReinitialisedUnitsForgetMisuse := by
  intro s s' hw
  refine ⟨fun cmds hall hc => ?_, fun x cmds hall hc => ?_⟩
  · rw [sequenceInContract_cons (exec_wnew s), Bool.and_eq_true] at hc
    obtain ⟨-, hcq⟩ := hc
    obtain ⟨t, rs, hrun, hlen⟩ := runCommands_total cmds (respond 0 (setPacker 0 0 s))
    have hsame : (respond 0 (setPacker 0 0 s)).samePacker (respond 0 (setPacker 0 0 s')) := ⟨hw, rfl, rfl⟩
    obtain ⟨t', hrun', -, hacc, hbits⟩ := runCommands_filter_packer hsame hcq hrun
    rw [List.filter_eq_self.mpr hall, pickResponses_of_forall hall hlen] at hrun'
    exact ⟨t, t', 0 :: rs, runCommands_cons (exec_wnew s) rfl hrun, runCommands_cons (exec_wnew s') rfl hrun', hacc,
      hbits⟩
  · have hx (s : State) : exec (.rnew x) s = .next (respond 0 (setWord x (setCursor 0 0 s))) :=
      exec_rnew_eq_next.mpr rfl
    rw [sequenceInContract_cons (hx s), Bool.and_eq_true] at hc
    obtain ⟨-, hcq⟩ := hc
    obtain ⟨t, rs, hrun, hlen⟩ := runCommands_total cmds (respond 0 (setWord x (setCursor 0 0 s)))
    have hcur : (respond 0 (setWord x (setCursor 0 0 s))).cursorTrue := fun _ => rfl
    have hsame : (respond 0 (setWord x (setCursor 0 0 s))).sameUnpacker (respond 0 (setWord x (setCursor 0 0 s'))) :=
      ⟨hw, rfl, rfl, rfl⟩
    obtain ⟨t', hrun', -, hend⟩ := runCommands_filter_unpacker hcur hsame hcq hrun
    rw [List.filter_eq_self.mpr hall, pickResponses_of_forall hall hlen] at hrun'
    exact ⟨t, t', 0 :: rs, runCommands_cons (hx s) rfl hrun, runCommands_cons (hx s') rfl hrun', hend⟩

/-- s at another draw number. -/
def State.withDraws (s : State) (d : Nat) : State :=
  { s with draws := d }

/-- In contract a command does the same at every draw number (R102). -/
theorem exec_withDraws (hc : inContract i s = true) (hcur : s.cursorTrue) (h : exec i s = .next t) (d : Nat) :
    exec i (s.withDraws d) = .next (t.withDraws d) := by
  cases i with
  | mask n =>
    have hle := maskInContract_iff.mp hc
    rw [exec_mask_of_le hle] at h
    cases h
    exact exec_mask_of_le (s := s.withDraws d) hle
  | write count value =>
    have hle := writeInContract_iff.mp hc
    rw [exec_write_of_le hle] at h
    cases h
    exact exec_write_of_le (s := s.withDraws d) hle
  | read count =>
    have hle := readInContract_iff.mp hc
    have hpos := hcur ((Nat.le_add_right _ _).trans hle)
    rw [exec_read_of_le hle hpos] at h
    cases h
    exact exec_read_of_le (s := s.withDraws d) hle hpos
  | bitsize | wnew | finish | rnew | reserved7 => cases h; rfl

/-- A sequence in contract draws nothing, and answers the same at every draw number (R102). -/
theorem runCommands_withDraws (hcur : s.cursorTrue) (hc : sequenceInContract prog s = true)
    (hrun : runCommands prog s = some (t, rs)) (d : Nat) :
    t.draws = s.draws ∧ runCommands prog (s.withDraws d) = some (t.withDraws d, rs) := by
  induction prog generalizing s rs with
  | nil =>
    cases hrun
    exact ⟨rfl, rfl⟩
  | cons i q ih =>
    obtain ⟨t₁, v, vs, hx, hv, hq, rfl⟩ := runCommands_cons_inv hrun
    rw [sequenceInContract_cons hx, Bool.and_eq_true] at hc
    obtain ⟨hci, hcq⟩ := hc
    obtain ⟨hdraws, hrest⟩ := ih (exec_keeps_cursorTrue hcur hx) hcq hq
    exact ⟨hdraws.trans (exec_draws hci (fun _ => hcur) hx), runCommands_cons (exec_withDraws hci hcur hx d) hv hrest⟩

/-- Settles O54: a safe program is in contract, and `runCommands_withDraws` holds of every sequence that is. -/
theorem safeProgramsDrawNothing : Obligations.SafeProgramsDrawNothing := by
  intro prog s d hcur hsafe
  rw [safeProgram, Bool.and_eq_true] at hsafe
  obtain ⟨-, hc⟩ := hsafe
  obtain ⟨t, rs, hrun, -⟩ := runCommands_total prog s
  exact ⟨t, rs, hrun, runCommands_withDraws hcur hc hrun d⟩

end Sys2Proof.Machine
end

section
/-!
PROOFS. The assembler's operands (30_encoding.md R56): each mnemonic has one operand form, each form takes the operands
in range and no others, and so what assembles is a well-formed command.
-/

namespace Sys2Proof.Machine

variable {w : Width} {n m : Nat} {ops : List Nat} {i j : Instr}

theorem countOperand_toNat (c : Count) : countOperand c.toNat = .ok c := by
  have hlt : c.toNat < 256 := c.isLt
  rw [countOperand, if_pos hlt, BitVec.ofNat_toNat, BitVec.setWidth_eq]

theorem countOperand_of_le (h : 256 ≤ n) : countOperand n = .error .outOfRange :=
  if_neg (Nat.not_lt.mpr h)

theorem wordOperand_toNat {v : Word} (h : Word.fits w v) : wordOperand w v.toNat = .ok v := by
  rw [wordOperand, if_pos h, BitVec.ofNat_toNat, BitVec.setWidth_eq]

theorem wordOperand_of_le (h : 2 ^ w.bits ≤ m) : wordOperand w m = .error .outOfRange :=
  if_neg (Nat.not_lt.mpr h)

/-- A count operand is a count or out of range: there is no other error. -/
theorem countOperand_cases (n : Nat) : (∃ c, countOperand n = .ok c) ∨ countOperand n = .error .outOfRange := by
  obtain hlt | hle := Nat.lt_or_ge n 256
  · exact .inl ⟨_, if_pos hlt⟩
  · exact .inr (countOperand_of_le hle)

theorem fits_of_wordOperand {v : Word} (h : wordOperand w m = .ok v) : Word.fits w v := by
  obtain hlt | hle := Nat.lt_or_ge m (2 ^ w.bits)
  · rw [wordOperand, if_pos hlt] at h
    cases h
    rw [Word.fits, BitVec.toNat_ofNat]
    exact (Nat.mod_le _ _).trans_lt hlt
  · rw [wordOperand_of_le hle] at h
    cases h

/-! The operand form of each mnemonic that takes operands (R56). -/

theorem assembleCommand_mask (c : Count) : assembleCommand w (mnemonicText (.mask c)) ops = countForm .mask ops := rfl
theorem assembleCommand_write (c : Count) (v : Word) :
    assembleCommand w (mnemonicText (.write c v)) ops = writeForm w ops := rfl
theorem assembleCommand_rnew (v : Word) : assembleCommand w (mnemonicText (.rnew v)) ops = wordForm w .rnew ops := rfl
theorem assembleCommand_read (c : Count) : assembleCommand w (mnemonicText (.read c)) ops = countForm .read ops := rfl

/-! What each form makes of operands in range and out of it. -/

theorem countForm_toNat (f : Count → Instr) (c : Count) : countForm f [c.toNat] = .ok (f c) := by
  rw [countForm, countOperand_toNat]

theorem countForm_of_le (f : Count → Instr) (h : 256 ≤ n) : countForm f [n] = .error .outOfRange := by
  rw [countForm, countOperand_of_le h]

theorem wordForm_toNat (f : Word → Instr) {v : Word} (h : Word.fits w v) : wordForm w f [v.toNat] = .ok (f v) := by
  rw [wordForm, wordOperand_toNat h]

theorem wordForm_of_le (f : Word → Instr) (h : 2 ^ w.bits ≤ m) : wordForm w f [m] = .error .outOfRange := by
  rw [wordForm, wordOperand_of_le h]

theorem writeForm_toNat (c : Count) {v : Word} (h : Word.fits w v) :
    writeForm w [c.toNat, v.toNat] = .ok (.write c v) := by
  rw [writeForm, countOperand_toNat, wordOperand_toNat h]

theorem writeForm_of_count_le (h : 256 ≤ n) : writeForm w [n, m] = .error .outOfRange := by
  rw [writeForm, countOperand_of_le h]

/-- Whatever the count, a value out of range is one. -/
theorem writeForm_of_value_le (h : 2 ^ w.bits ≤ m) : writeForm w [n, m] = .error .outOfRange := by
  rw [writeForm, wordOperand_of_le h]
  obtain ⟨c, hc⟩ | hc := countOperand_cases n
  · rw [hc]
  · rw [hc]

/-! What a form that succeeds gives. -/

theorem noOperands_ok (h : noOperands i ops = .ok j) : j = i := by
  cases ops with
  | nil => cases h; rfl
  | cons n rest => cases h

theorem countForm_ok {f : Count → Instr} (h : countForm f ops = .ok j) : ∃ c, j = f c := by
  unfold countForm at h
  split at h
  · split at h
    · cases h
      exact ⟨_, rfl⟩
    · cases h
  · cases h

theorem wordForm_ok {f : Word → Instr} (h : wordForm w f ops = .ok j) : ∃ v, Word.fits w v ∧ j = f v := by
  unfold wordForm at h
  split at h
  · split at h
    · next hv =>
      cases h
      exact ⟨_, fits_of_wordOperand hv, rfl⟩
    · cases h
  · cases h

theorem writeForm_ok (h : writeForm w ops = .ok j) : ∃ c v, Word.fits w v ∧ j = .write c v := by
  unfold writeForm at h
  split at h
  · split at h
    · next hv =>
      cases h
      exact ⟨_, _, fits_of_wordOperand hv, rfl⟩
    · cases h
    · cases h
  · cases h

/-- What assembles is one of the forms' commands: its operands are in range, and it is not the reserved one, which has no
mnemonic (R56). -/
theorem wellFormed_of_assembleCommand {name : List Char} (h : assembleCommand w name ops = .ok i) :
    i.wellFormed w = true ∧ i ≠ .reserved7 := by
  unfold assembleCommand at h
  split_ifs at h
  · obtain rfl := noOperands_ok h
    exact ⟨rfl, by decide⟩
  · obtain ⟨c, rfl⟩ := countForm_ok h
    exact ⟨rfl, nofun⟩
  · obtain rfl := noOperands_ok h
    exact ⟨rfl, by decide⟩
  · obtain ⟨c, v, hv, rfl⟩ := writeForm_ok h
    exact ⟨decide_eq_true hv, nofun⟩
  · obtain rfl := noOperands_ok h
    exact ⟨rfl, by decide⟩
  · obtain ⟨v, hv, rfl⟩ := wordForm_ok h
    exact ⟨decide_eq_true hv, nofun⟩
  · obtain ⟨c, rfl⟩ := countForm_ok h
    exact ⟨rfl, nofun⟩

/-- Settles O60: each mnemonic's form refuses operands out of range, and what assembles is well formed
(`wellFormed_of_assembleCommand`). -/
theorem assemblerKeepsOperandRanges : Obligations.AssemblerKeepsOperandRanges := by
  intro w n m
  refine ⟨fun h => ⟨?_, ?_, ?_⟩, fun h => ⟨?_, ?_⟩, fun _ _ _ => wellFormed_of_assembleCommand⟩
  · exact (assembleCommand_mask 0).trans (countForm_of_le .mask h)
  · exact (assembleCommand_read 0).trans (countForm_of_le .read h)
  · exact (assembleCommand_write 0 0).trans (writeForm_of_count_le h)
  · exact (assembleCommand_rnew 0).trans (wordForm_of_le .rnew h)
  · exact (assembleCommand_write 0 0).trans (writeForm_of_value_le h)

end Sys2Proof.Machine
end

section
/-!
PROOFS. The assembler reads the disassembler's lines (30_encoding.md R56, R59): the text of a number reads as the number,
a line falls into its words, and the words are the mnemonic and the operands it was printed from.
-/

namespace Sys2Proof.Machine

variable {w : Width} {i : Instr} {line rest text name : List Char}

/-- A character that stands inside a word of a line: no blank, comma or comment. -/
def isWordChar (c : Char) : Bool :=
  !(c = ';' || c = ',' || c = ' ' || c = '\t')

/-- A text that is one word of a line. -/
def IsWordText (text : List Char) : Prop :=
  text ≠ [] ∧ ∀ c ∈ text, isWordChar c = true

theorem tokensFrom_cons_of_isWordChar {c : Char} (h : isWordChar c = true) (cur rest : List Char) :
    tokensFrom cur (c :: rest) = tokensFrom (cur ++ [c]) rest := by
  simp only [isWordChar, Bool.not_eq_true', Bool.or_eq_false_iff, decide_eq_false_iff_not] at h
  obtain ⟨⟨⟨hsemi, hcomma⟩, hblank⟩, htab⟩ := h
  rw [tokensFrom, if_neg hsemi, if_neg hcomma, if_neg (not_or.mpr ⟨hblank, htab⟩)]

/-- The characters of a word are gathered one by one. -/
theorem tokensFrom_append (h : ∀ c ∈ text, isWordChar c = true) (cur rest : List Char) :
    tokensFrom cur (text ++ rest) = tokensFrom (cur ++ text) rest := by
  induction text generalizing cur with
  | nil => simp
  | cons c text ih =>
    rw [List.cons_append, tokensFrom_cons_of_isWordChar (h c List.mem_cons_self),
      ih (fun d hd => h d (List.mem_cons_of_mem c hd)), List.append_assoc, List.singleton_append]

theorem flushWord_of_ne_nil (h : text ≠ []) : flushWord text = [.word text] := by
  cases text with
  | nil => exact absurd rfl h
  | cons c rest => rfl

theorem tokensFrom_word_end (h : IsWordText text) : tokensFrom [] text = [.word text] := by
  obtain ⟨hne, hchars⟩ := h
  have hgather := tokensFrom_append hchars [] []
  rw [List.append_nil, List.nil_append] at hgather
  rw [hgather, tokensFrom, flushWord_of_ne_nil hne]

theorem tokensFrom_word_blank (h : IsWordText text) (rest : List Char) :
    tokensFrom [] (text ++ ' ' :: rest) = .word text :: tokensFrom [] rest := by
  obtain ⟨hne, hchars⟩ := h
  rw [tokensFrom_append hchars, List.nil_append, tokensFrom, if_neg (by decide), if_neg (by decide),
    if_pos (.inl rfl), flushWord_of_ne_nil hne, List.singleton_append]

theorem tokensFrom_word_comma (h : IsWordText text) (rest : List Char) :
    tokensFrom [] (text ++ ',' :: rest) = .word text :: .comma :: tokensFrom [] rest := by
  obtain ⟨hne, hchars⟩ := h
  rw [tokensFrom_append hchars, List.nil_append, tokensFrom, if_neg (by decide), if_pos rfl,
    flushWord_of_ne_nil hne, List.singleton_append]

theorem tokensFrom_blank (rest : List Char) : tokensFrom [] (' ' :: rest) = tokensFrom [] rest := rfl

theorem isWordText_mnemonicText (h : i ≠ .reserved7) : IsWordText (mnemonicText i) := by
  cases i with
  | reserved7 => exact absurd rfl h
  | bitsize | mask | wnew | write | finish | rnew | read =>
    exact ⟨List.cons_ne_nil _ _, by simp [mnemonicText, isWordChar]⟩

theorem isWordChar_hexDigit {d : Nat} (h : d < 16) : isWordChar (hexDigit d) = true := by
  interval_cases d <;> rfl

theorem digitValue_hexDigit {d : Nat} (h : d < 16) : digitValue (hexDigit d) = some d := by
  interval_cases d <;> rfl

theorem hexDigits_succ (k n : Nat) : hexDigits (k + 1) n = hexDigits k (n / 16) ++ [hexDigit (n % 16)] := rfl

theorem mod_sixteen_lt (n : Nat) : n % 16 < 16 := Nat.mod_lt n (by decide)

theorem isWordChar_of_mem_hexDigits {k n : Nat} {c : Char} (h : c ∈ hexDigits k n) : isWordChar c = true := by
  induction k generalizing n with
  | zero => cases h
  | succ k ih =>
    rw [hexDigits_succ, List.mem_append, List.mem_singleton] at h
    obtain hhigh | rfl := h
    · exact ih hhigh
    · exact isWordChar_hexDigit (mod_sixteen_lt n)

/-- The digits of a number's text are read from the left, so a last digit is read after all others. -/
theorem digitsValue_append (base acc : Nat) (xs ys : List Char) :
    digitsValue base acc (xs ++ ys) = (digitsValue base acc xs).bind fun a => digitsValue base a ys := by
  induction xs generalizing acc with
  | nil => rfl
  | cons c xs ih =>
    rw [List.cons_append, digitsValue, digitsValue]
    cases digitValue c with
    | none => rfl
    | some d =>
      by_cases hd : d < base
      · simp only [if_pos hd, ih]
      · simp only [if_neg hd, Option.bind_none]

/-- k hexadecimal digits read as the number mod 16^k, below those read before (R7). -/
theorem digitsValue_hexDigits (k acc n : Nat) :
    digitsValue 16 acc (hexDigits k n) = some (acc * 16 ^ k + n % 16 ^ k) := by
  induction k generalizing n with
  | zero => simp [hexDigits, digitsValue, Nat.mod_one]
  | succ k ih =>
    have hlast (a : Nat) : digitsValue 16 a [hexDigit (n % 16)] = some (a * 16 + n % 16) := by
      simp [digitsValue, digitValue_hexDigit (mod_sixteen_lt n), mod_sixteen_lt n]
    have hmod : n % (16 * 16 ^ k) = n % 16 + 16 * (n / 16 % 16 ^ k) := Nat.mod_mul
    rw [hexDigits_succ, digitsValue_append, ih, Option.bind_some, hlast, Nat.pow_succ, Nat.mul_comm (16 ^ k), hmod]
    congr 1
    ring

/-- The text of a number in k > 0 hexadecimal digits is read as that number (R56). -/
theorem parseNumber_hex {k n : Nat} (hk : 0 < k) (hn : n < 16 ^ k) :
    parseNumber ('0' :: 'x' :: hexDigits k n) = some n := by
  have hvalue : digitsValue 16 0 (hexDigits k n) = some n := by
    rw [digitsValue_hexDigits, Nat.zero_mul, Nat.zero_add, Nat.mod_eq_of_lt hn]
  cases hdigits : hexDigits k n with
  | nil =>
    obtain ⟨k, rfl⟩ := Nat.exists_eq_succ_of_ne_zero hk.ne'
    simp [hexDigits_succ] at hdigits
  | cons c rest =>
    rw [hdigits] at hvalue
    exact hvalue

theorem isWordText_hex (k n : Nat) : IsWordText ('0' :: 'x' :: hexDigits k n) := by
  refine ⟨List.cons_ne_nil _ _, fun c hc => ?_⟩
  simp only [List.mem_cons] at hc
  obtain rfl | rfl | hc := hc
  · rfl
  · rfl
  · exact isWordChar_of_mem_hexDigits hc

theorem parseNumber_countText (c : Count) : parseNumber (countText c) = some c.toNat :=
  parseNumber_hex two_pos c.isLt

/-- W/4 hexadecimal digits hold a word of W bits. -/
theorem sixteen_pow_digits (w : Width) : 16 ^ (w.bits / 4) = 2 ^ w.bits := by
  cases w <;> rfl

theorem parseNumber_wordText {v : Word} (h : Word.fits w v) : parseNumber (wordText w v) = some v.toNat := by
  have hpos : 0 < w.bits / 4 := by cases w <;> decide
  exact parseNumber_hex hpos (by rwa [sixteen_pow_digits])

theorem parseOperands_one {a : List Char} {n : Nat} (ha : parseNumber a = some n) :
    parseOperands [.word a] = .ok [n] := by
  rw [parseOperands, ha]

theorem parseOperands_two {a b : List Char} {n m : Nat} (ha : parseNumber a = some n) (hb : parseNumber b = some m) :
    parseOperands [.word a, .comma, .word b] = .ok [n, m] := by
  rw [parseOperands, ha, hb]

/-- A line assembles from its words: the mnemonic, then the operands (R56). -/
theorem assembleLine_of_tokens {ts : List Token} {ops : List Nat} (hline : tokensFrom [] line = .word name :: ts)
    (hops : parseOperands ts = .ok ops) (hcmd : assembleCommand w name ops = .ok i) :
    assembleLine w line = .ok (some i) := by
  simp only [assembleLine, hline, hops, hcmd]

theorem assembleLine_no_operand (hi : i ≠ .reserved7) (hcmd : assembleCommand w (mnemonicText i) [] = .ok i) :
    assembleLine w (mnemonicText i) = .ok (some i) :=
  assembleLine_of_tokens (tokensFrom_word_end (isWordText_mnemonicText hi)) rfl hcmd

theorem assembleLine_one_operand {n : Nat} (hi : i ≠ .reserved7) (htext : IsWordText text)
    (hn : parseNumber text = some n) (hcmd : assembleCommand w (mnemonicText i) [n] = .ok i) :
    assembleLine w (mnemonicText i ++ ' ' :: text) = .ok (some i) := by
  have hline : tokensFrom [] (mnemonicText i ++ ' ' :: text) = [.word (mnemonicText i), .word text] := by
    rw [tokensFrom_word_blank (isWordText_mnemonicText hi), tokensFrom_word_end htext]
  exact assembleLine_of_tokens hline (parseOperands_one hn) hcmd

theorem assembleLine_write (count : Count) {value : Word} (h : Word.fits w value) :
    assembleLine w (mnemonicText (.write count value) ++ ' ' :: countText count ++ ',' :: ' ' :: wordText w value) =
      .ok (some (.write count value)) := by
  have hname : IsWordText (mnemonicText (.write count value)) := isWordText_mnemonicText nofun
  have hline : tokensFrom []
      (mnemonicText (.write count value) ++ ' ' :: countText count ++ ',' :: ' ' :: wordText w value) =
      [.word (mnemonicText (.write count value)), .word (countText count), .comma, .word (wordText w value)] := by
    rw [List.append_assoc, List.cons_append, tokensFrom_word_blank hname, countText,
      tokensFrom_word_comma (isWordText_hex _ _), tokensFrom_blank, wordText,
      tokensFrom_word_end (isWordText_hex _ _)]
  exact assembleLine_of_tokens hline (parseOperands_two (parseNumber_countText count) (parseNumber_wordText h))
    ((assembleCommand_write count value).trans (writeForm_toNat count h))

/-- The line printed for each well-formed command but the reserved one assembles to it, operand form by operand form. -/
theorem assembleLine_disassemble (h : i.wellFormed w = true) (hi : i ≠ .reserved7) :
    ∃ line, disassemble w i = some line ∧ assembleLine w line = .ok (some i) := by
  cases i with
  | bitsize | wnew | finish => exact ⟨_, rfl, assembleLine_no_operand hi rfl⟩
  | mask n =>
    exact ⟨_, rfl, assembleLine_one_operand hi (isWordText_hex _ _) (parseNumber_countText n)
      ((assembleCommand_mask n).trans (countForm_toNat .mask n))⟩
  | write count value => exact ⟨_, rfl, assembleLine_write count (of_decide_eq_true h)⟩
  | rnew value =>
    have hfits : Word.fits w value := of_decide_eq_true h
    exact ⟨_, rfl, assembleLine_one_operand hi (isWordText_hex _ _) (parseNumber_wordText hfits)
      ((assembleCommand_rnew value).trans (wordForm_toNat .rnew hfits))⟩
  | read count =>
    exact ⟨_, rfl, assembleLine_one_operand hi (isWordText_hex _ _) (parseNumber_countText count)
      ((assembleCommand_read count).trans (countForm_toNat .read count))⟩
  | reserved7 => exact absurd rfl hi

/-- Settles O59: `assembleLine_disassemble`, and the reserved opcode prints nothing by definition. -/
theorem assemblerReadsTheDisassembly : Obligations.AssemblerReadsTheDisassembly := by
  intro w i h
  refine ⟨assembleLine_disassemble h, ?_⟩
  rintro rfl
  rfl

end Sys2Proof.Machine
end
